-- ==== Sys2Proof/Word.lean ====
section
/-! DEFINITION. The word types of the block (00_scope.md R7: a byte is 8 bits, nothing is signed) and the names of the
three kinds of checksum. -/

namespace Sys2Proof

/-- A buffer cell's content and a command word (R30, R44). -/
abbrev Byte := BitVec 8

/-- The width of the accumulators SUM1 and SUM2 (R11, R12). -/
abbrev SumWord := BitVec 32

/-- The width of RESULT (R23). -/
abbrev ResultWord := BitVec 64

/-- The closed set of checksum kinds (R7, R45). The 2-bit code `0b11` is reserved and names no kind; KINDR and RKIND never
hold it (R15, R20), so both are held as a `Kind` (log 11). -/
inductive Kind where
  | f16
  | f32
  | f64
deriving DecidableEq, Repr

end Sys2Proof
end

