-- ==== Sys2Proof/Syntax.lean ====
section
/-! DEFINITION. The instruction set: the three commands of spec/opcode_table.json (30_encoding.md R46). -/

namespace Sys2Proof

/-- One constructor per row of the opcode table. Commands carry no operand fields: their operands are implicit (R48). -/
inductive Instr where
  | fletcher16
  | fletcher32
  | fletcher64
deriving DecidableEq, Repr

end Sys2Proof
end

