-- ==== Sys2Proof/Decode.lean ====
section
/-! DEFINITION. Command words: the fields (30_encoding.md R44), the KIND code (R45), the opcode map (R46, R47) and the
encoder. -/

namespace Sys2Proof

/-- Field ZERO, bits 7:2 of a command word (R44). -/
def zeroField (w : Byte) : BitVec 6 := w.extractLsb' 2 6

/-- Field KIND, bits 1:0 of a command word (R44). -/
def kindField (w : Byte) : BitVec 2 := w.extractLsb' 0 2

/-- The 2-bit encoding of a kind, used by KIND, KINDR and RKIND alike (R45). -/
def Kind.code : Kind → BitVec 2
  | .f16 => 0b00#2
  | .f32 => 0b01#2
  | .f64 => 0b10#2

/-- The kind a 2-bit code names; `0b11` is reserved (R45). -/
def kindOfCode? (b : BitVec 2) : Option Kind :=
  if b = 0b00#2 then some .f16
  else if b = 0b01#2 then some .f32
  else if b = 0b10#2 then some .f64
  else none

/-- The kind of checksum a command asks for (R45, R46). -/
def Instr.kind : Instr → Kind
  | .fletcher16 => .f16
  | .fletcher32 => .f32
  | .fletcher64 => .f64

/-- The command of a kind (R45). -/
def Kind.command : Kind → Instr
  | .f16 => .fletcher16
  | .f32 => .fletcher32
  | .f64 => .fletcher64

/-- Why a command word is reserved (R47). -/
inductive ReservedReason where
  | zeroFieldNotZero   -- bits 7:2 are not all zero
  | kindReserved       -- bits 7:2 are zero and KIND is 0b11
deriving DecidableEq, Repr

/-- What a command word is: a command or a reserved word, by name. -/
inductive Decoded where
  | command (i : Instr)
  | reserved (why : ReservedReason)
deriving DecidableEq, Repr

/-- The decoder reads all 8 bits of the word (R46). -/
def decode (w : Byte) : Decoded :=
  if zeroField w ≠ 0 then .reserved .zeroFieldNotZero
  else match kindOfCode? (kindField w) with
    | some k => .command k.command
    | none => .reserved .kindReserved

/-- The instruction of a decoded word, none for a reserved one. -/
def Decoded.instr? : Decoded → Option Instr
  | .command i => some i
  | .reserved _ => none

/-- The command word of an instruction: ZERO above KIND (R44 to R46). -/
def encode (i : Instr) : Byte := 0#6 ++ i.kind.code

/-- A command word numbered as spec/opcode_table.json numbers it: one word of 8 bits (R44, R53). -/
def tableWord (nbits w : Nat) : Byte := BitVec.ofNat 8 (w % 2 ^ nbits)

/-- What the decoder reads from a word of the opcode table. -/
def decodeTableWord (nbits w : Nat) : Option Instr := (decode (tableWord nbits w)).instr?

end Sys2Proof
end

