-- ==== Sys2Proof/Config.lean ====
section
/-! DEFINITION. The static parameters of the block (00_scope.md R4 to R6) and the model's free values. -/

namespace Sys2Proof

/-- BYTE_ORDER (R4): how the bytes of a chunk are placed in a word. -/
inductive ByteOrder where
  | little
  | big
deriving DecidableEq, Repr

/-- PAD_RULE (R5): how many zero bytes the packer appends. -/
inductive PadRule where
  | align
  | literal
deriving DecidableEq, Repr

/-- TAIL_RULE (R5, R67): what becomes of a trailing chunk shorter than a word; read only under `PadRule.literal`. -/
inductive TailRule where
  | drop
  | keep
deriving DecidableEq, Repr

/-- The parameters of one block, fixed when it is built (R4 to R6). `lenBits` is LEN_BITS. -/
structure Config where
  byteOrder : ByteOrder
  padRule   : PadRule
  tailRule  : TailRule
  lenBits   : Nat
deriving DecidableEq, Repr

/-- The defaults the spec names: LITTLE (R4) and ALIGN (R5). DESIGN CHOICE (log 2): LEN_BITS is OPEN in the spec (R6) and is
16 here; DESIGN CHOICE (log 19): TAIL_RULE, never read under ALIGN, is `drop` here. -/
def Config.default : Config :=
  { byteOrder := .little, padRule := .align, tailRule := .drop, lenBits := 16 }

/-- FREE VALUE (log 6): what the n-th read of RESULT under DONE = 0 returns (R91: "a fresh arbitrary value at every such
read, about which a model may assume nothing"). -/
opaque Config.freeResult : Nat → ResultWord

/-- FREE VALUE (log 9): the unspecified content of a buffer cell no host write has filled (R24, R25). No reachable step
reads one (R93). -/
opaque Config.unwrittenByte : Nat → Byte

end Sys2Proof
end

