-- ==== Sys2Proof/Machine/HostOp.lean ====
section
/-! DEFINITION. What the host can do to the block (30_encoding.md R54, R55), what it gets back, and whose turn it is
(42_operation_sequence.md R85). -/

namespace Sys2Proof.Machine

/-- A host operation. R54 gives each named operation as an access to a register index, so one constructor covers all
writes and one all reads; the names of R54 are definitions in Machine/Host.lean. -/
inductive HostOp where
  | wbuf (i : Nat) (b : Byte)      -- WBUF i, b: write a byte to buffer cell i (R87)
  | writeReg (index v : Nat)       -- x[index] <- v (R13, R36); CMD is index 0, WLEN is index 1
  | readReg (index : Nat)          -- read x[index] (R13, R36)
  | wait                           -- WAIT: repeat RSTATUS until the value read has DONE = 1 (R55)
deriving DecidableEq, Repr

/-- What a host read returns, whole registers at a time (R36). -/
inductive Reply where
  | ctrl (v : Byte)
  | len (n : Nat)
  | status (v : Byte)
  | result (v : ResultWord)
deriving DecidableEq, Repr

/-- Who takes the next step: the host, the engine (R85), or the platform raising reset (R112). -/
inductive Turn where
  | host
  | engine
  | reset
deriving DecidableEq, Repr

end Sys2Proof.Machine
end

