-- ==== Sys2Proof/Machine/Memory.lean ====
section
/-! DEFINITION. The operand buffer BUF as plain data (10_state.md R24, R25; 20_memory.md R30).

The list holds the cells whose VALID bit is 1, with their byte. An unlisted cell has NO value: the spec gives a cell no
content before the host writes it (R25: "A cell with `VALID[i] = 0` holds no value a model may use"; log 8). -/

namespace Sys2Proof.Machine

/-- BUF together with VALID: (address, byte) pairs in one canonical form. -/
abbrev Memory := List Host.Cell

/-- The canonical form: addresses strictly rising. No entry can equal what an unlisted address reads as, since that is no
value. -/
abbrev Memory.wf (m : Memory) : Prop := m.Pairwise fun x y => x.1 < y.1

/-- The content of cell `a`; none for a cell that holds no value. -/
def Memory.read? : Memory → Nat → Option Byte
  | [], _ => none
  | c :: m, a => if c.1 = a then some c.2 else Memory.read? m a

/-- Write one byte to cell `a`, keeping the addresses rising (R36: the host writes one byte at a time). -/
def Memory.write : Memory → Nat → Byte → Memory
  | [], a, b => [(a, b)]
  | c :: m, a, b =>
    if a < c.1 then (a, b) :: c :: m
    else if a = c.1 then (a, b) :: m
    else c :: Memory.write m a b

/-- VALID[a] (R25): the cell holds a byte the host wrote. -/
def Memory.valid (m : Memory) (a : Nat) : Bool := (m.read? a).isSome

/-- What an unlisted buffer reads as: nothing listed. BUF after reset and after a finalisation step (R27, R94). -/
def Memory.discarded : Memory := []

end Sys2Proof.Machine
end

