-- ==== Sys2Proof/Machine/State.lean ====
section
/-! DEFINITION. The state of one block instance (10_state.md R10), the reasons a step can stop, and the state after reset
(R27). -/

namespace Sys2Proof.Machine

/-- The block has NO fault: it "raises no synchronous exception, for any command, any buffer content, any length and any
configuration" (60_exceptions.md R103), so the type has no constructor (log 13). -/
inductive Fault where
deriving DecidableEq, Repr

/-- Why a step has no meaning. The last four are the closed list of 60_exceptions.md R104; all are safe: no claim holds of
a refused run, and no state is changed. -/
inductive Refusal where
  /-- An instruction that has no meaning yet; raised by exec's arms alone. Safe. -/
  | notModelled (mnemonic : String)
  /-- A reserved command word written to CTRL while BUSY = 0 (R47, R89 case 2). Safe. -/
  | reservedCommand
  /-- A command issued while BUSY = 0 over a cell of `[0, LEN)` with VALID = 0 (R89 case 3). Safe. -/
  | bufferNotLoaded
  /-- WBUF to a cell ≥ BUF_MAX (R87). Safe. -/
  | bufferIndexOutOfRange
  /-- An access to a register index above 3 (R13, R92). Safe. -/
  | noSuchRegister
deriving DecidableEq, Repr

/-- The state. `cfg` is the fixed configuration, written by no step (log 1); `sum1` to `buf` are the spec's state (R10), `buf`
holding BUF and VALID (log 8), CTRL holding nothing (R21); `program` to `draws` are the model's own (logs 3 to 6). -/
structure State where
  cfg      : Config
  sum1     : SumWord          -- SUM1 (R11)
  sum2     : SumWord          -- SUM2 (R12)
  ucnt     : Nat              -- UCNT (R14), below 2^LEN_BITS by the invariant (log 17)
  kindr    : Kind             -- KINDR (R15)
  busy     : Bool             -- STATUS.BUSY (R16)
  done     : Bool             -- STATUS.DONE (R17)
  rkind    : Kind             -- STATUS.RKIND (R19)
  len      : Nat              -- LEN (R22), below 2^LEN_BITS by the invariant (log 17)
  result   : ResultWord       -- RESULT (R23)
  buf      : Memory           -- BUF and VALID (R24, R25)
  program  : List HostOp      -- host operations still to be performed, oldest first
  schedule : List Turn        -- turns still to come, next first
  replies  : List Reply       -- what the host's reads returned, newest first
  draws    : Nat              -- reads of RESULT under DONE = 0 so far: the index of the next free value
deriving DecidableEq, Repr

/-- The state after reset of a block built with configuration `c` (R27). DESIGN CHOICE (log 7): RESULT 0 and KINDR F16,
which R27 leaves unspecified; DESIGN CHOICE (log 8): no buffer cell holds a value; DESIGN CHOICE (logs 3 to 6): the model's
own fields are empty. -/
def State.resetWith (c : Config) : State :=
  { cfg := c, sum1 := 0#32, sum2 := 0#32, ucnt := 0, kindr := .f16, busy := false, done := false, rkind := .f16,
    len := 0, result := 0#64, buf := [], program := [], schedule := [], replies := [], draws := 0 }

/-- The machine right after reset, in the default configuration. -/
def State.reset : State := State.resetWith Config.default

end Sys2Proof.Machine
end

