-- ==== Sys2Proof/Machine/Flags.lean ====
section
/-! DEFINITION. STATUS and the phases read off it (10_state.md R16 to R20, 42_operation_sequence.md R86). The block has no
condition codes (10_state.md section 4). -/

namespace Sys2Proof.Machine

/-- The three phases of the block (R86). -/
inductive Phase where
  | idle
  | run
  | done
deriving DecidableEq, Repr

/-- The value STATUS reads as: `[7:4]` zero, `[3:2]` RKIND, `[1]` DONE, `[0]` BUSY (R20, R90). -/
def State.statusWord (s : State) : Byte :=
  0#4 ++ s.rkind.code ++ BitVec.ofBool s.done ++ BitVec.ofBool s.busy

/-- The DONE bit of a value read from STATUS: bit 1 (R20, R55). -/
def doneBit (v : Byte) : Bool := v.getLsbD 1

/-- The phase of the block (R18, R86). Both flags set is unreachable (R18). -/
def State.phase (s : State) : Phase :=
  if s.busy then .run else if s.done then .done else .idle

end Sys2Proof.Machine
end

