-- ==== Sys2Proof/Machine/Operands.lean ====
section
/-! DEFINITION. Operands: the constants of a kind (30_encoding.md R45) and the Word Packer (40_word_packer.md), which forms
the units the engine adds from the buffer's bytes. -/

namespace Sys2Proof

/-- C: the width of the check value (R45). -/
def Kind.checkBits : Kind → Nat
  | .f16 => 16
  | .f32 => 32
  | .f64 => 64

/-- UB = C/2: the width of a unit and of each sum (R45). -/
def Kind.unitBits (k : Kind) : Nat := k.checkBits / 2

/-- WB = UB/8: the number of bytes of a unit (R45). -/
def Kind.unitBytes (k : Kind) : Nat := k.unitBits / 8

/-- M = 2^UB - 1: the modulus (R45, R71). -/
def Kind.modulus (k : Kind) : Nat := 2 ^ k.unitBits - 1

/-- The label of a check value of a kind, which the host derives from the tag (R19, R45). -/
def Kind.label : Kind → String
  | .f16 => "Fletcher-16"
  | .f32 => "Fletcher-32"
  | .f64 => "Fletcher-64"

/-- BUF_MAX = 2^LEN_BITS - 1: the number of buffer cells and the largest LEN (R6, R24). -/
def Config.bufMax (c : Config) : Nat := 2 ^ c.lenBits - 1

namespace Machine

/-- floor and ceiling of a division (00_scope.md section 7). -/
def ceilDiv (a b : Nat) : Nat := (a + b - 1) / b

/-- Word assembly, earliest byte least significant: the sum over j of `p[j] << (8·j)` (R31, LITTLE). -/
def assembleLittle : List Byte → Nat
  | [] => 0
  | b :: bs => b.toNat + 2 ^ 8 * assembleLittle bs

/-- `assemble_WB(p)` (R31): under BIG the earliest byte is the most significant. -/
def assemble (o : ByteOrder) (p : List Byte) : Nat :=
  match o with
  | .little => assembleLittle p
  | .big => assembleLittle p.reverse

/-- `MemRead(i, 1)[0]`: the engine's read of one cell (R35). A cell with no value gives a free byte (log 9); no reachable
step reads one. -/
def memRead (buf : Memory) (i : Nat) : Byte := (buf.read? i).getD (Config.unwrittenByte i)

/-- `PadRead(i)` (R34): a position at or beyond LEN is the constant zero, without an access. -/
def padRead (len : Nat) (buf : Memory) (i : Nat) : Byte := if i < len then memRead buf i else 0#8

/-- The effective addresses `k·WB + j` of the bytes of unit `k`, in ascending order (R98, R35). -/
def unitAddresses (wb k : Nat) : List Nat := (List.range wb).map fun j => k * wb + j

/-- `unit(k)` (R61). -/
def unitValue (o : ByteOrder) (wb len : Nat) (buf : Memory) (k : Nat) : Nat :=
  assemble o ((unitAddresses wb k).map (padRead len buf))

/-- `NUNITS(L, WB)`, the number of units of a buffer of `l` bytes, for every configuration (R68). -/
def nunits (c : Config) (l wb : Nat) : Nat :=
  match c.padRule, c.tailRule with
  | .align, _ => ceilDiv l wb
  | .literal, .drop => (l + l % wb) / wb
  | .literal, .keep => ceilDiv (l + l % wb) wb

end Machine
end Sys2Proof
end

