-- ==== Sys2Proof/Machine/Ops.lean ====
section
/-! DEFINITION. The named operations over the state: reading the buffer as units, writing the registers and the buffer,
accepting a command, and reset. The block takes no exception and returns from none (60_exceptions.md R103, R107, R108), so
there is no such operation here. -/

namespace Sys2Proof.Machine

/-- VALID[i] (R25). -/
def State.valid (s : State) (i : Nat) : Bool := s.buf.valid i

/-- Every cell of `[0, LEN)` is valid (R89 case 3 fails); true of the empty buffer. -/
def State.loaded (s : State) : Bool := (List.range s.len).all s.valid

/-- The ByteBuffer `[BUF[0], ..., BUF[LEN-1]]` (R24, R30). -/
def State.byteBuffer (s : State) : List Byte := (List.range s.len).map (memRead s.buf)

/-- `n = NUNITS(LEN, WB)` with WB of KINDR (42_operation_sequence.md section 3). -/
def State.unitCount (s : State) : Nat := nunits s.cfg s.len s.kindr.unitBytes

/-- `unit(k)` of the running calculation (R61). -/
def State.unit (s : State) (k : Nat) : Nat :=
  unitValue s.cfg.byteOrder s.kindr.unitBytes s.len s.buf k

/-- The update of the two sums by one unit: the second uses the new first sum (R73). -/
def fletcherUpdate (m : Nat) (sums : Nat × Nat) (u : Nat) : Nat × Nat :=
  let s1 := (sums.1 + u) % m
  (s1, (sums.2 + s1) % m)

/-- `zext_64((SUM2 << UB) | SUM1)` (R74, R51). -/
def checkWord (k : Kind) (sum1 sum2 : SumWord) : ResultWord :=
  (sum2.setWidth 64 <<< k.unitBits) ||| sum1.setWidth 64

/-- Write LEN (R88). The register is LEN_BITS wide: a wider operand gives its low LEN_BITS bits (log 10). -/
def State.setLen (s : State) (n : Nat) : State := { s with len := n % 2 ^ s.cfg.lenBits }

/-- Write a buffer cell and set its VALID bit (R87). -/
def State.storeByte (s : State) (i : Nat) (b : Byte) : State := { s with buf := s.buf.write i b }

/-- A host read returned `r` (log 5). -/
def State.reply (s : State) (r : Reply) : State := { s with replies := r :: s.replies }

/-- A host read of RESULT under DONE = 0: it returns the next free value (R91, log 6). -/
def State.replyFree (s : State) : State :=
  { s with replies := .result (Config.freeResult s.draws) :: s.replies, draws := s.draws + 1 }

/-- Acceptance of a command of kind `k` (R89 case 4): nothing else changes. -/
def State.accept (s : State) (k : Kind) : State :=
  { s with kindr := k, sum1 := 0#32, sum2 := 0#32, ucnt := 0, busy := true, done := false }

/-- Command issue, shared by the three commands (R89 cases 1, 3 and 4; case 2, a reserved word, is no command). -/
def issue (k : Kind) (s : State) : Host.Outcome State Fault Refusal :=
  if s.busy then .next s
  else if s.loaded then .next (s.accept k)
  else .refused .bufferNotLoaded

/-- The reset event (R112, R113): every piece of the block's state takes its reset value, in any phase. The configuration is
the block's own; what the host has still to do and has already learned, and the turns to come, are not state of the block
(log 15). -/
def State.resetBlock (s : State) : State :=
  { State.resetWith s.cfg with
    program := s.program, schedule := s.schedule, replies := s.replies, draws := s.draws }

end Sys2Proof.Machine
end

