-- ==== Sys2Proof/Machine/Fletcher.lean ====
section
/-! DEFINITION. The meanings of the three commands: each is a write of its word to CTRL (42_operation_sequence.md R89). The
calculation it starts runs in engine steps of its own (Machine/Engine.lean): R97 forbids folding them into the acceptance. -/

namespace Sys2Proof.Machine

/-- FLETCHER16 (R77, R89). -/
def execFletcher16 (s : State) : Host.Outcome State Fault Refusal := issue .f16 s

/-- FLETCHER32 (R78, R89). -/
def execFletcher32 (s : State) : Host.Outcome State Fault Refusal := issue .f32 s

/-- FLETCHER64 (R79, R89). -/
def execFletcher64 (s : State) : Host.Outcome State Fault Refusal := issue .f64 s

end Sys2Proof.Machine
end

