-- ==== Sys2Proof/Machine/Dispatch.lean ====
section
/-! DEFINITION. One arm per command. -/

namespace Sys2Proof.Machine

def exec (i : Instr) (s : State) : Host.Outcome State Fault Refusal :=
  match i with
  | .fletcher16 => Sys2Proof.Machine.execFletcher16 s
  | .fletcher32 => Sys2Proof.Machine.execFletcher32 s
  | .fletcher64 => Sys2Proof.Machine.execFletcher64 s

end Sys2Proof.Machine
end

