-- ==== Sys2Proof/Machine/Engine.lean ====
section
/-! DEFINITION. The engine's steps (42_operation_sequence.md section 3). -/

namespace Sys2Proof.Machine

/-- The unit step's effect (R93): unit UCNT is added to the sums. -/
def State.unitStep (s : State) : State :=
  let sums := fletcherUpdate s.kindr.modulus (s.sum1.toNat, s.sum2.toNat) (s.unit s.ucnt)
  { s with sum1 := BitVec.ofNat 32 sums.1, sum2 := BitVec.ofNat 32 sums.2, ucnt := s.ucnt + 1 }

/-- The finalisation step's effect (R94): the result is delivered and the buffer discarded. -/
def State.finalise (s : State) : State :=
  { s with
    result := checkWord s.kindr s.sum1 s.sum2, rkind := s.kindr, busy := false, done := true,
    buf := Memory.discarded }

/-- One turn of the engine (R93 to R95). With BUSY = 0 it has no enabled step; UCNT above NUNITS is unreachable and enables
none either (log 12). -/
def State.engineStep (s : State) : State :=
  if s.busy then
    if s.ucnt < s.unitCount then s.unitStep
    else if s.ucnt = s.unitCount then s.finalise
    else s
  else s

/-- `k` turns of the engine in a row. -/
def State.engineSteps : Nat → State → State
  | 0, s => s
  | k + 1, s => State.engineSteps k s.engineStep

end Sys2Proof.Machine
end

