-- ==== Sys2Proof/Machine/Host.lean ====
section
/-! DEFINITION. The host's operations (42_operation_sequence.md section 2), the names and pseudo-operations of
30_encoding.md R54 and R55, and the host's turn. Every operation is given the state with the operation itself taken off
`program`. -/

namespace Sys2Proof.Machine

/-- WBUF i, b (R87): refused for a cell that does not exist, dropped while BUSY = 1. -/
def writeBuffer (i : Nat) (b : Byte) (s : State) : Host.Outcome State Fault Refusal :=
  if i < s.cfg.bufMax then .next (if s.busy then s else s.storeByte i b)
  else .refused .bufferIndexOutOfRange

/-- CMD w (R89): dropped while BUSY = 1, whatever the word; otherwise a reserved word is refused and a command executed. -/
def writeCtrl (w : Byte) (s : State) : Host.Outcome State Fault Refusal :=
  match decode w with
  | .command i => exec i s
  | .reserved _ => if s.busy then .next s else .refused .reservedCommand

/-- WLEN n (R88): dropped while BUSY = 1. -/
def writeLen (n : Nat) (s : State) : Host.Outcome State Fault Refusal :=
  .next (if s.busy then s else s.setLen n)

/-- A host write of register `index` (R13, R92): STATUS and RESULT ignore it, above 3 there is no register. CTRL is 8 bits
wide: a wider operand gives its low 8 bits (log 10). -/
def writeRegister (index v : Nat) (s : State) : Host.Outcome State Fault Refusal :=
  match index with
  | 0 => writeCtrl (BitVec.ofNat 8 v) s
  | 1 => writeLen v s
  | 2 => .next s
  | 3 => .next s
  | _ => .refused .noSuchRegister

/-- RRESULT (R91): the result while DONE = 1, a free value otherwise; the result is not consumed. -/
def readResult (s : State) : State :=
  if s.done then s.reply (.result s.result) else s.replyFree

/-- A host read of register `index` (R90 to R92). No read has a side effect on the block (R36). -/
def readRegister (index : Nat) (s : State) : Host.Outcome State Fault Refusal :=
  match index with
  | 0 => .next (s.reply (.ctrl 0#8))
  | 1 => .next (s.reply (.len s.len))
  | 2 => .next (s.reply (.status s.statusWord))
  | 3 => .next (readResult s)
  | _ => .refused .noSuchRegister

/-- WAIT (R55): one RSTATUS; unless the value read has DONE = 1, WAIT is still to be performed. -/
def pollDone (s : State) : State :=
  if doneBit s.statusWord then s.reply (.status s.statusWord)
  else { s.reply (.status s.statusWord) with program := .wait :: s.program }

/-- One host operation. -/
def hostOp (op : HostOp) (s : State) : Host.Outcome State Fault Refusal :=
  match op with
  | .wbuf i b => writeBuffer i b s
  | .writeReg index v => writeRegister index v s
  | .readReg index => readRegister index s
  | .wait => .next (pollDone s)

/-- The host's turn: its next operation, if it has one. -/
def hostTurn (s : State) : Host.Outcome State Fault Refusal :=
  match s.program with
  | [] => .next s
  | op :: ops => hostOp op { s with program := ops }

/-- Whose turn it is: the schedule says; once it is used up, a busy engine goes first and then the host (log 3; the
engine's weak fairness, R120). -/
def State.nextTurn (s : State) : Turn :=
  match s.schedule with
  | t :: _ => t
  | [] => if s.busy then .engine else .host

/-- One turn, the schedule's entry for it already taken off. -/
def takeTurn (t : Turn) (s : State) : Host.Outcome State Fault Refusal :=
  match t with
  | .host => hostTurn s
  | .engine => .next s.engineStep
  | .reset => .next s.resetBlock

/-- A command word where the host's next operation writes it to CTRL, at a turn of the host (log 4). -/
def placeCommand (s : State) (w : Byte) : State :=
  { s with program := .writeReg 0 w.toNat :: s.program, schedule := .host :: s.schedule }

/-- The operations of R54 by name. -/
def HostOp.cmd (w : Byte) : HostOp := .writeReg 0 w.toNat

/-- WLEN n (R54). -/
def HostOp.wlen (n : Nat) : HostOp := .writeReg 1 n

/-- RCTRL (R54). -/
def HostOp.rctrl : HostOp := .readReg 0

/-- RLEN (R54). -/
def HostOp.rlen : HostOp := .readReg 1

/-- RSTATUS (R54). -/
def HostOp.rstatus : HostOp := .readReg 2

/-- RRESULT (R54). -/
def HostOp.rresult : HostOp := .readReg 3

/-- FLETCHER16, FLETCHER32, FLETCHER64 as host operations: the command's word written to CTRL (R54). -/
def HostOp.command (i : Instr) : HostOp := .cmd (encode i)

/-- `WBUF i, b` for the bytes of a list, from cell `i` on. -/
def HostOp.wbufs : Nat → List Byte → List HostOp
  | _, [] => []
  | i, b :: bs => .wbuf i b :: HostOp.wbufs (i + 1) bs

/-- LOAD (R55). -/
def HostOp.load (bytes : List Byte) : List HostOp :=
  HostOp.wbufs 0 bytes ++ [.wlen bytes.length]

/-- CALC16, CALC32, CALC64 (R55). -/
def HostOp.calc (i : Instr) (bytes : List Byte) : List HostOp :=
  HostOp.load bytes ++ [.command i, .wait, .rresult]

end Sys2Proof.Machine
end

