-- ==== Sys2Proof/Machine/Step.lean ====
section
/-! DEFINITION. One step of the block: one turn of the host, the engine or the platform (42_operation_sequence.md R85). -/

namespace Sys2Proof.Machine

/-- The step. -/
def step (s : State) : Host.Outcome State Fault Refusal :=
  takeTurn s.nextTurn { s with schedule := s.schedule.tail }

/-- The word of the opcode table as the host's next operation, at the host's turn (log 4). -/
def State.withFetchWord (s : State) (nbits w : Nat) : State := placeCommand s (tableWord nbits w)

end Sys2Proof.Machine
end

