-- ==== Sys2Proof/Reference.lean ====
section
/-! DEFINITION. The checksum as the source states it, over whole byte sequences: the packer of 40_word_packer.md R56 to R60
(R66, R67 under LITERAL) and the algorithm of 41_fletcher_engine.md R70 to R74. No step uses it; statements compare the
machine with it. -/

namespace Sys2Proof.Reference

open Sys2Proof.Machine

/-- The pad count: R57 under ALIGN, R66 under LITERAL. -/
def padCount (r : PadRule) (l wb : Nat) : Nat :=
  match r with
  | .align => if l % wb = 0 then 0 else wb - l % wb
  | .literal => l % wb

/-- `P = B ++ zeros(pad)` (R58). -/
def padded (r : PadRule) (bytes : List Byte) (wb : Nat) : List Byte :=
  bytes ++ List.replicate (padCount r bytes.length wb) 0#8

/-- Chunk `k` of a padded sequence: `wb` consecutive bytes (R59); a trailing partial chunk that is kept is extended with
zero bytes (R67, KEEP). -/
def chunk (p : List Byte) (wb k : Nat) : List Byte :=
  let bytes := (p.drop (k * wb)).take wb
  bytes ++ List.replicate (wb - bytes.length) 0#8

/-- How many words grouping yields: the whole chunks (R59), and under KEEP the partial one too (R67). -/
def wordCount (c : Config) (bytes : List Byte) (wb : Nat) : Nat :=
  let total := (padded c.padRule bytes wb).length
  match c.padRule, c.tailRule with
  | .literal, .keep => ceilDiv total wb
  | _, _ => total / wb

/-- `pack(bytes, word_bits)` (R56 to R60). -/
def pack (c : Config) (bytes : List Byte) (wordBits : Nat) : List Nat :=
  let wb := wordBits / 8
  (List.range (wordCount c bytes wb)).map fun k =>
    assemble c.byteOrder (chunk (padded c.padRule bytes wb) wb k)

/-- The units of a byte sequence: its bytes for Fletcher-16, words of the packer for the others (R70). -/
def units (c : Config) (k : Kind) (bytes : List Byte) : List Nat :=
  match k with
  | .f16 => bytes.map (·.toNat)
  | .f32 => pack c bytes 16
  | .f64 => pack c bytes 32

/-- The two running sums after the units `us`, both 0 before them (R71 to R73). -/
def sums (m : Nat) (us : List Nat) : Nat × Nat :=
  us.foldl (fun p u => ((p.1 + u) % m, (p.2 + (p.1 + u) % m) % m)) (0, 0)

/-- The check value of a kind of a byte sequence (R74). -/
def checksum (c : Config) (k : Kind) (bytes : List Byte) : Nat :=
  let p := sums k.modulus (units c k bytes)
  (p.2 <<< k.unitBits) ||| p.1

end Sys2Proof.Reference
end

