-- ==== Sys2Proof/WellFormed.lean ====
section
/-! DEFINITION. What is well formed: a command (always: it has no operands, R48), a configuration, a host operation. -/

namespace Sys2Proof

/-- A command has no field that could be out of range (R48). -/
def Instr.wellFormed : Instr → Bool
  | .fletcher16 => true
  | .fletcher32 => true
  | .fletcher64 => true

/-- LEN_BITS is a natural number ≥ 1 (R6); every value of the other parameters is legal (R4, R5). -/
def Config.wellFormed (c : Config) : Bool := decide (1 ≤ c.lenBits)

/-- The host operation is one the interface has: the buffer cell exists (R87), the register exists (R92), and the operand
of a register write fits the register (R44, R88). The operands of writes to STATUS and RESULT are never used. -/
def Machine.HostOp.wellFormed (c : Config) : Machine.HostOp → Bool
  | .wbuf i _ => decide (i < c.bufMax)
  | .writeReg 0 v => decide (v < 2 ^ 8)
  | .writeReg 1 v => decide (v ≤ c.bufMax)
  | .writeReg i _ => decide (i ≤ 3)
  | .readReg i => decide (i ≤ 3)
  | .wait => true

end Sys2Proof
end

