-- ==== Sys2Proof/Safety.lean ====
section
/-! DEFINITION. The terms claims use: running the block, the sums a calculation has reached, and the invariant of the
block. -/

namespace Sys2Proof.Machine

/-- `k` steps of the block, stopping at a refusal: the interface's run of this machine. -/
def run : Nat → State → Host.Outcome State Fault Refusal
  | 0, s => .next s
  | k + 1, s =>
    match step s with
    | .next t => run k t
    | .fault f => .fault f
    | .refused r => .refused r

/-- The two sums after the first `k` units of the calculation over the state's buffer (R72, R73). -/
def State.sumsAfter (s : State) (k : Nat) : Nat × Nat :=
  Reference.sums s.kindr.modulus ((List.range k).map s.unit)

/-- The block's invariant: it rules out the states no run from reset reaches. -/
structure State.Inv (s : State) : Prop where
  /-- LEN_BITS ≥ 1 (R6). -/
  cfg_wf : s.cfg.wellFormed = true
  /-- BUF is in its canonical form. -/
  buf_wf : s.buf.wf
  /-- Only cells that exist hold a byte (R24). -/
  buf_range : ∀ c ∈ s.buf, c.1 < s.cfg.bufMax
  /-- LEN fits its register (R22). -/
  len_range : s.len ≤ s.cfg.bufMax
  /-- UCNT fits its register (R14). -/
  ucnt_range : s.ucnt ≤ s.cfg.bufMax
  /-- BUSY and DONE are never both 1 (R18). -/
  flags : ¬(s.busy = true ∧ s.done = true)
  /-- `0 ≤ SUM1 ≤ M − 1` (R75). -/
  sum1_range : s.sum1.toNat < s.kindr.modulus
  /-- `0 ≤ SUM2 ≤ M − 1` (R75). -/
  sum2_range : s.sum2.toNat < s.kindr.modulus
  /-- Every byte a calculation may read is valid (R89 case 3, R93). -/
  run_loaded : s.busy = true → ∀ i < s.len, s.valid i = true
  /-- `0 ≤ UCNT ≤ n` during a calculation (R95). -/
  run_ucnt : s.busy = true → s.ucnt ≤ s.unitCount
  /-- During a calculation the sums are those of the units consumed so far (R14, R73). -/
  run_sums : s.busy = true → (s.sum1.toNat, s.sum2.toNat) = s.sumsAfter s.ucnt
  /-- While DONE = 1, RESULT and RKIND hold the outcome of the last calculation (R17, R23). -/
  done_result : s.done = true → s.result = checkWord s.kindr s.sum1 s.sum2 ∧ s.rkind = s.kindr

end Sys2Proof.Machine
end

