-- ==== Sys2Proof/Certificates/Slice0/Obligations.lean ====
section
/-! DEFINITION. The statements about the block, from the spec's numbered rules. -/

open Sys2Proof Sys2Proof.Machine

/-! ### Command words -/

/-- R46, R47: the three words that are commands, and the 253 that are reserved, by value and by field. -/
def Obligations.OpcodeMapIsComplete : Prop :=
  ∀ w : Byte,
    ((decode w).instr? =
      if w = 0x00#8 then some .fletcher16
      else if w = 0x01#8 then some .fletcher32
      else if w = 0x02#8 then some .fletcher64
      else none) ∧
    ((decode w).instr? = none ↔ w.extractLsb' 0 2 = 0b11#2 ∨ w.extractLsb' 2 6 ≠ 0#6)

/-- The decoder and the encoder agree, in both directions (R44 to R46). -/
def Obligations.EncodingAndDecodingAgree : Prop :=
  (∀ i : Instr, decode (encode i) = .command i) ∧
  (∀ (w : Byte) (i : Instr), decode w = .command i → encode i = w)

/-- Words written out bit by bit from the opcode map (R46), and the reserved words of 95_test_vectors.md section 7. -/
def Obligations.WrittenOutWordsDecode : Prop :=
  decode 0b00000000#8 = .command .fletcher16 ∧
  decode 0b00000001#8 = .command .fletcher32 ∧
  decode 0b00000010#8 = .command .fletcher64 ∧
  (decode 0b00000011#8).instr? = none ∧
  (decode 0b00000100#8).instr? = none ∧
  (decode 0b10000001#8).instr? = none ∧
  (decode 0b11111111#8).instr? = none ∧
  decodeTableWord 8 0x02 = some .fletcher64

/-- A write of a command's word to CTRL, at the host's turn, runs that command; the step takes the operation and the turn
off their lists and does nothing else. -/
def Obligations.StepRunsTheDecodedCommand : Prop :=
  ∀ (s : State) (i : Instr) (w : Byte) (ops : List HostOp),
    s.nextTurn = .host → s.program = HostOp.cmd w :: ops → decode w = .command i →
    step s = exec i { s with program := ops, schedule := s.schedule.tail }

/-- A word of the opcode table, placed where the next step takes its command, runs at that step. -/
def Obligations.PlacedCommandRunsAtTheNextStep : Prop :=
  ∀ (s : State) (nbits w : Nat) (i : Instr),
    decodeTableWord nbits w = some i → step (s.withFetchWord nbits w) = exec i s

/-- R45: the constants each kind selects, and the shared 2-bit code, `0b11` being no kind's. -/
def Obligations.KindConstants : Prop :=
  (Kind.f16.code = 0b00#2 ∧ Kind.f16.command = .fletcher16 ∧ Kind.f16.checkBits = 16 ∧ Kind.f16.unitBits = 8 ∧
    Kind.f16.unitBytes = 1 ∧ Kind.f16.modulus = 0xFF ∧ Kind.f16.label = "Fletcher-16") ∧
  (Kind.f32.code = 0b01#2 ∧ Kind.f32.command = .fletcher32 ∧ Kind.f32.checkBits = 32 ∧ Kind.f32.unitBits = 16 ∧
    Kind.f32.unitBytes = 2 ∧ Kind.f32.modulus = 0xFFFF ∧ Kind.f32.label = "Fletcher-32") ∧
  (Kind.f64.code = 0b10#2 ∧ Kind.f64.command = .fletcher64 ∧ Kind.f64.checkBits = 64 ∧ Kind.f64.unitBits = 32 ∧
    Kind.f64.unitBytes = 4 ∧ Kind.f64.modulus = 0xFFFFFFFF ∧ Kind.f64.label = "Fletcher-64") ∧
  (∀ k : Kind, kindOfCode? k.code = some k) ∧ kindOfCode? 0b11#2 = none ∧
  (∀ s : State, s.statusWord.extractLsb' 2 2 = s.rkind.code) ∧
  (∀ i : Instr, (encode i).extractLsb' 0 2 = i.kind.code ∧ i.kind.command = i)

/-! ### The commands -/

/-- R72, R89 case 4: with BUSY = 0 and the buffer loaded, each command is accepted, with exactly this next state. -/
def Obligations.CommandsAreAccepted : Prop :=
  ∀ s : State, s.busy = false → (∀ i < s.len, s.valid i = true) →
    exec .fletcher16 s =
      .next { s with kindr := .f16, sum1 := 0#32, sum2 := 0#32, ucnt := 0, busy := true, done := false } ∧
    exec .fletcher32 s =
      .next { s with kindr := .f32, sum1 := 0#32, sum2 := 0#32, ucnt := 0, busy := true, done := false } ∧
    exec .fletcher64 s =
      .next { s with kindr := .f64, sum1 := 0#32, sum2 := 0#32, ucnt := 0, busy := true, done := false }

/-- R89: the cases of a write to CTRL, in their order. -/
def Obligations.CommandWriteTriesItsCasesInOrder : Prop :=
  ∀ (s : State) (w : Byte),
    (s.busy = true → hostOp (.cmd w) s = .next s) ∧
    (s.busy = false → (w.extractLsb' 2 6 ≠ 0#6 ∨ w.extractLsb' 0 2 = 0b11#2) →
      hostOp (.cmd w) s = .refused .reservedCommand) ∧
    (s.busy = false → w.extractLsb' 2 6 = 0#6 → w.extractLsb' 0 2 ≠ 0b11#2 → (∃ i < s.len, s.valid i = false) →
      hostOp (.cmd w) s = .refused .bufferNotLoaded) ∧
    (s.busy = false → w.extractLsb' 2 6 = 0#6 → w.extractLsb' 0 2 ≠ 0b11#2 → (∀ i < s.len, s.valid i = true) →
      ∃ (k : Kind) (t : State), k.code = w.extractLsb' 0 2 ∧ hostOp (.cmd w) s = .next t ∧
        t = { s with kindr := k, sum1 := 0#32, sum2 := 0#32, ucnt := 0, busy := true, done := false } ∧
        hostOp .rresult t =
          .next { t with replies := .result (Config.freeResult t.draws) :: t.replies, draws := t.draws + 1 } ∧
        ∀ (op : HostOp) (u : State), hostOp op t = .next u →
          u.len = s.len ∧ ∀ a, u.buf.read? a = s.buf.read? a) ∧
    (s.len = 0 → hostOp (.cmd w) s ≠ .refused .bufferNotLoaded)

/-- The frame of the three commands (R89): they write KINDR, SUM1, SUM2, UCNT, BUSY and DONE and nothing else; they store
nothing to BUF. -/
def Obligations.CommandFrame : Prop :=
  ∀ (i : Instr) (s t : State), exec i s = .next t →
    t.cfg = s.cfg ∧ t.rkind = s.rkind ∧ t.len = s.len ∧ t.result = s.result ∧
    (∀ a, t.buf.read? a = s.buf.read? a) ∧ (∀ a, t.valid a = s.valid a) ∧
    t.program = s.program ∧ t.schedule = s.schedule ∧ t.replies = s.replies ∧ t.draws = s.draws ∧
    (s.busy = true → t = s)

/-- R77: FLETCHER16 is accepted, and LEN + 1 engine steps later the state is this one; the value depends on no parameter. -/
def Obligations.Fletcher16Result : Prop :=
  ∀ s : State, s.busy = false → (∀ i < s.len, s.valid i = true) →
    ∃ t : State, exec .fletcher16 s = .next t ∧ t.busy = true ∧ t.done = false ∧
      (let p := Reference.sums 255 ((List.range s.len).map fun k => (memRead s.buf k).toNat)
       t.engineSteps (s.len + 1) =
         { s with
           kindr := .f16, sum1 := BitVec.ofNat 32 p.1, sum2 := BitVec.ofNat 32 p.2, ucnt := s.len, busy := false,
           done := true, rkind := .f16, result := BitVec.ofNat 64 ((p.2 <<< 8) ||| p.1), buf := [] } ∧
       (p.2 <<< 8) ||| p.1 < 2 ^ 16 ∧ (s.len = 0 → (p.2 <<< 8) ||| p.1 = 0))

/-- R78: FLETCHER32 likewise over 16-bit words; the value depends on BYTE_ORDER alone. -/
def Obligations.Fletcher32Result : Prop :=
  ∀ s : State, s.busy = false → (∀ i < s.len, s.valid i = true) →
    ∃ t : State, exec .fletcher32 s = .next t ∧ t.busy = true ∧ t.done = false ∧
      (let n := (s.len + 1) / 2
       let b := fun i => (padRead s.len s.buf i).toNat
       let p := Reference.sums 65535 ((List.range n).map fun k =>
         match s.cfg.byteOrder with
         | .little => b (2 * k) + b (2 * k + 1) * 2 ^ 8
         | .big => b (2 * k) * 2 ^ 8 + b (2 * k + 1))
       t.engineSteps (n + 1) =
         { s with
           kindr := .f32, sum1 := BitVec.ofNat 32 p.1, sum2 := BitVec.ofNat 32 p.2, ucnt := n, busy := false,
           done := true, rkind := .f32, result := BitVec.ofNat 64 ((p.2 <<< 16) ||| p.1), buf := [] } ∧
       (p.2 <<< 16) ||| p.1 < 2 ^ 32 ∧ (s.len = 0 → (p.2 <<< 16) ||| p.1 = 0))

/-- R79: FLETCHER64 likewise over 32-bit words; the number of words depends on PAD_RULE and TAIL_RULE for LEN mod 4 in
{1, 3}. -/
def Obligations.Fletcher64Result : Prop :=
  ∀ s : State, s.busy = false → (∀ i < s.len, s.valid i = true) →
    ∃ t : State, exec .fletcher64 s = .next t ∧ t.busy = true ∧ t.done = false ∧
      (let n := match s.cfg.padRule, s.cfg.tailRule with
         | .align, _ => (s.len + 3) / 4
         | .literal, .drop => (s.len + s.len % 4) / 4
         | .literal, .keep => (s.len + s.len % 4 + 3) / 4
       let b := fun i => (padRead s.len s.buf i).toNat
       let p := Reference.sums 4294967295 ((List.range n).map fun k =>
         match s.cfg.byteOrder with
         | .little => b (4 * k) + b (4 * k + 1) * 2 ^ 8 + b (4 * k + 2) * 2 ^ 16 + b (4 * k + 3) * 2 ^ 24
         | .big => b (4 * k) * 2 ^ 24 + b (4 * k + 1) * 2 ^ 16 + b (4 * k + 2) * 2 ^ 8 + b (4 * k + 3))
       t.engineSteps (n + 1) =
         { s with
           kindr := .f64, sum1 := BitVec.ofNat 32 p.1, sum2 := BitVec.ofNat 32 p.2, ucnt := n, busy := false,
           done := true, rkind := .f64, result := BitVec.ofNat 64 ((p.2 <<< 32) ||| p.1), buf := [] } ∧
       (p.2 <<< 32) ||| p.1 < 2 ^ 64 ∧ (s.len = 0 → (p.2 <<< 32) ||| p.1 = 0))

/-- Every command, run to its end, leaves in RESULT the check value the source's packer and algorithm give for the
ByteBuffer, under every configuration. -/
def Obligations.CommandsComputeTheSourceChecksum : Prop :=
  ∀ (s : State) (i : Instr), s.busy = false → (∀ j < s.len, s.valid j = true) →
    ∃ t : State, exec i s = .next t ∧
      (let u := t.engineSteps (nunits s.cfg s.len i.kind.unitBytes + 1)
       u.busy = false ∧ u.done = true ∧ u.rkind = i.kind ∧
       u.result.toNat = Reference.checksum s.cfg i.kind s.byteBuffer ∧ u.result.toNat < 2 ^ i.kind.checkBits)

/-- The value is a function of the kind, the parameters, LEN and the buffer below LEN alone (R80). -/
def Obligations.ResultDependsOnTheBufferAlone : Prop :=
  ∀ (s s' : State) (i : Instr), s.busy = false → s'.busy = false → s.cfg = s'.cfg → s.len = s'.len →
    (∀ j < s.len, s.valid j = true) → (∀ j < s.len, s.buf.read? j = s'.buf.read? j) →
    ∃ t t' : State, exec i s = .next t ∧ exec i s' = .next t' ∧
      ∀ k, (t.engineSteps k).busy = (t'.engineSteps k).busy ∧ (t.engineSteps k).done = (t'.engineSteps k).done ∧
        ((t.engineSteps k).done = true →
          (t.engineSteps k).result = (t'.engineSteps k).result ∧ (t.engineSteps k).rkind = (t'.engineSteps k).rkind)

/-- The closed form of the sums (R82): after `k` units of an accepted command, SUM1 is the sum of the units and SUM2 the
sum weighted by position, both mod M. -/
def Obligations.SumsHaveTheClosedForm : Prop :=
  ∀ (s : State) (i : Instr) (k : Nat), s.busy = false → (∀ j < s.len, s.valid j = true) →
    k ≤ nunits s.cfg s.len i.kind.unitBytes →
    ∃ t : State, exec i s = .next t ∧
      (let u := t.engineSteps k
       u.ucnt = k ∧
       u.sum1.toNat = (∑ j ∈ Finset.range k, t.unit j) % i.kind.modulus ∧
       u.sum2.toNat = (∑ j ∈ Finset.range k, (k - j) * t.unit j) % i.kind.modulus)

/-! ### The other host operations -/

/-- R87: WBUF. -/
def Obligations.WriteBufferStoresOneCell : Prop :=
  ∀ (s : State) (i : Nat) (b : Byte),
    (s.cfg.bufMax ≤ i → hostOp (.wbuf i b) s = .refused .bufferIndexOutOfRange) ∧
    (i < s.cfg.bufMax → s.busy = true → hostOp (.wbuf i b) s = .next s) ∧
    (i < s.cfg.bufMax → s.busy = false →
      ∃ t : State, hostOp (.wbuf i b) s = .next t ∧ t = { s with buf := t.buf } ∧
        t.buf.read? i = some b ∧ t.valid i = true ∧
        ∀ a, a ≠ i → t.buf.read? a = s.buf.read? a ∧ t.valid a = s.valid a) ∧
    (s.buf.wf → ∀ (j : Nat) (c : Byte) (t t' : State), i ≠ j →
      hostOp (.wbuf i b) s = .next t → hostOp (.wbuf j c) s = .next t' →
      ∃ u : State, hostOp (.wbuf j c) t = .next u ∧ hostOp (.wbuf i b) t' = .next u) ∧
    (s.buf.wf → ∀ (c : Byte) (t : State), hostOp (.wbuf i b) s = .next t →
      hostOp (.wbuf i c) t = hostOp (.wbuf i c) s)

/-- R88: WLEN, for every length the register can hold. -/
def Obligations.WriteLenStoresTheLength : Prop :=
  ∀ (s : State) (n : Nat), n ≤ s.cfg.bufMax →
    (s.busy = false → hostOp (.wlen n) s = .next { s with len := n }) ∧
    (s.busy = true → hostOp (.wlen n) s = .next s) ∧
    (∀ (i : Nat) (b : Byte) (t t' : State),
      hostOp (.wlen n) s = .next t → hostOp (.wbuf i b) s = .next t' →
      ∃ u : State, hostOp (.wbuf i b) t = .next u ∧ hostOp (.wlen n) t' = .next u)

/-- R20: STATUS, its layout, its legal values, that writing it does nothing, and that a command leaves the old tag in it. -/
def Obligations.StatusReadsItsFields : Prop :=
  (∀ s : State, ∃ v : Byte,
    hostOp .rstatus s = .next { s with replies := .status v :: s.replies } ∧
    v.getLsbD 0 = s.busy ∧ v.getLsbD 1 = s.done ∧ v.extractLsb' 2 2 = s.rkind.code ∧ v.extractLsb' 4 4 = 0#4 ∧
    (s.Inv →
      (s.busy = false ∧ s.done = false ∧ v ∈ [0x00#8, 0x04#8, 0x08#8]) ∨
      (s.busy = true ∧ s.done = false ∧ v ∈ [0x01#8, 0x05#8, 0x09#8]) ∨
      (s.busy = false ∧ s.done = true ∧ v ∈ [0x02#8, 0x06#8, 0x0A#8]))) ∧
  (∀ (s : State) (x : Nat), hostOp (.writeReg 2 x) s = .next s) ∧
  (∀ (i : Instr) (s t : State), exec i s = .next t → t.rkind = s.rkind) ∧
  (∀ c : Config, (State.resetWith c).statusWord = 0x00#8)

/-- R91: RESULT, not consumed by a read; under DONE = 0 the value read is a free value of its own. -/
def Obligations.ResultReads : Prop :=
  ∀ s : State,
    (s.done = true → hostOp .rresult s = .next { s with replies := .result s.result :: s.replies }) ∧
    (s.done = false → hostOp .rresult s =
      .next { s with replies := .result (Config.freeResult s.draws) :: s.replies, draws := s.draws + 1 }) ∧
    (s.Inv → s.done = true →
      s.result = (s.sum2.setWidth 64 <<< s.rkind.unitBits) ||| s.sum1.setWidth 64)

/-- R92: RLEN, RCTRL, writes to the read-only registers, register indices that do not exist, and that no read returns
hidden state. -/
def Obligations.OtherRegisterAccesses : Prop :=
  ∀ s : State,
    hostOp .rlen s = .next { s with replies := .len s.len :: s.replies } ∧
    hostOp .rctrl s = .next { s with replies := .ctrl 0x00#8 :: s.replies } ∧
    (∀ v : Nat, hostOp (.writeReg 2 v) s = .next s ∧ hostOp (.writeReg 3 v) s = .next s) ∧
    (∀ index v : Nat, 3 < index →
      hostOp (.writeReg index v) s = .refused .noSuchRegister ∧ hostOp (.readReg index) s = .refused .noSuchRegister) ∧
    (∀ (op : HostOp) (t : State) (a b : SumWord) (n : Nat) (k : Kind) (m : Memory),
      (op = .wait ∨ ∃ index, op = .readReg index) → hostOp op s = .next t →
      ∃ t' : State, hostOp op { s with sum1 := a, sum2 := b, ucnt := n, kindr := k, buf := m } = .next t' ∧
        t'.replies = t.replies)

/-- While BUSY = 1 no host operation changes the block (R16, R115): a step of the host leaves all of its state as it is. -/
def Obligations.HostCannotTouchARunningCalculation : Prop :=
  ∀ (op : HostOp) (s t : State), s.busy = true → hostOp op s = .next t →
    t = { s with program := t.program, replies := t.replies, draws := t.draws }

/-- R104: a step is refused for exactly these four reasons (the operand of a write to CTRL being the 8-bit word of R44). -/
def Obligations.RefusalsAreTheFourReasons : Prop :=
  ∀ (s : State) (r : Refusal), (∀ (v : Nat) (ops : List HostOp), s.program = .writeReg 0 v :: ops → v < 2 ^ 8) →
    (step s = .refused r ↔ s.nextTurn = .host ∧ ∃ (op : HostOp) (ops : List HostOp), s.program = op :: ops ∧
      ((r = .reservedCommand ∧ s.busy = false ∧
          ∃ w : Byte, op = .cmd w ∧ w ∉ [0x00#8, 0x01#8, 0x02#8]) ∨
       (r = .bufferNotLoaded ∧ s.busy = false ∧ (∃ i < s.len, s.valid i = false) ∧
          ∃ w : Byte, op = .cmd w ∧ w ∈ [0x00#8, 0x01#8, 0x02#8]) ∨
       (r = .bufferIndexOutOfRange ∧ ∃ i b, op = .wbuf i b ∧ s.cfg.bufMax ≤ i) ∨
       (r = .noSuchRegister ∧ ∃ index, 3 < index ∧ (op = .readReg index ∨ ∃ v, op = .writeReg index v))))

/-- R103: a step of any state goes on, unless the host's next operation meets one of R104's four conditions, and then it is
refused; and every command, over any configuration, length and content of the buffer, goes on when the block is busy or the
buffer loaded. -/
def Obligations.StepsGoOnUnlessRefused : Prop :=
  (∀ s : State,
    (∃ t : State, step s = .next t) ∨
    ((∃ r : Refusal, step s = .refused r) ∧ s.nextTurn = .host ∧ ∃ (op : HostOp) (ops : List HostOp),
      s.program = op :: ops ∧
      ((s.busy = false ∧ ∃ v, op = .writeReg 0 v ∧ v ∉ [0x00, 0x01, 0x02]) ∨
       (s.busy = false ∧ (∃ i < s.len, s.valid i = false) ∧ ∃ v, op = .writeReg 0 v ∧ v ∈ [0x00, 0x01, 0x02]) ∨
       (∃ i b, op = .wbuf i b ∧ s.cfg.bufMax ≤ i) ∨
       (∃ index, 3 < index ∧ (op = .readReg index ∨ ∃ v, op = .writeReg index v))))) ∧
  (∀ (s : State) (i : Instr) (c : Config) (n : Nat) (m : Memory),
    s.busy = true ∨ (∀ j < n, m.valid j = true) →
    ∃ t : State, exec i { s with cfg := c, len := n, buf := m } = .next t)

/-! ### The engine -/

/-- R93: the unit step, when it is taken, what it writes, and that it never reads a cell with no value. -/
def Obligations.UnitStepAddsOneUnit : Prop :=
  ∀ s : State,
    (s.busy = true → s.ucnt < s.unitCount →
      (let u := assemble s.cfg.byteOrder
         ((List.range s.kindr.unitBytes).map fun j => padRead s.len s.buf (s.ucnt * s.kindr.unitBytes + j))
       let s1 := (s.sum1.toNat + u) % s.kindr.modulus
       let s2 := (s.sum2.toNat + s1) % s.kindr.modulus
       s.engineStep = { s with sum1 := BitVec.ofNat 32 s1, sum2 := BitVec.ofNat 32 s2, ucnt := s.ucnt + 1 } ∧
       s.engineStep.sum1.toNat = s1 ∧ s.engineStep.sum2.toNat = s2)) ∧
    (¬(s.busy = true ∧ s.ucnt < s.unitCount) →
      s.engineStep.ucnt = s.ucnt ∧ s.engineStep.sum1 = s.sum1 ∧ s.engineStep.sum2 = s.sum2) ∧
    (s.Inv → s.busy = true → ∀ j < s.kindr.unitBytes, s.ucnt * s.kindr.unitBytes + j < s.len →
      ∃ b, s.buf.read? (s.ucnt * s.kindr.unitBytes + j) = some b)

/-- R94: the finalisation step. -/
def Obligations.FinalisationDeliversTheResult : Prop :=
  ∀ s : State,
    (s.busy = true → s.ucnt = s.unitCount →
      s.engineStep =
        { s with
          result := (s.sum2.setWidth 64 <<< s.kindr.unitBits) ||| s.sum1.setWidth 64
          rkind := s.kindr, busy := false, done := true, buf := s.engineStep.buf } ∧
      (∀ i, s.engineStep.valid i = false) ∧
      (0 < s.len → ∀ i : Instr, exec i s.engineStep = .refused .bufferNotLoaded)) ∧
    (¬(s.busy = true ∧ s.ucnt = s.unitCount) →
      s.engineStep.result = s.result ∧ s.engineStep.rkind = s.rkind ∧ s.engineStep.busy = s.busy ∧
      s.engineStep.done = s.done ∧ ∀ i, s.engineStep.valid i = s.valid i)

/-- R95: with BUSY = 0 the engine does nothing; with BUSY = 1 exactly one of its steps is enabled, and a turn of the engine
takes it. -/
def Obligations.EngineIsDeterministicAndNeverStuck : Prop :=
  (∀ s : State, s.nextTurn = .engine → step s = .next { s with schedule := s.schedule.tail }.engineStep) ∧
  (∀ s : State, s.busy = false → s.engineStep = s) ∧
  (∀ s : State, s.Inv → s.busy = true →
    (s.ucnt < s.unitCount ∧ s.ucnt ≠ s.unitCount ∨ s.ucnt = s.unitCount ∧ ¬ s.ucnt < s.unitCount) ∧ s.engineStep ≠ s)

/-- R35: during a calculation the engine reads each address below both LEN and the units' end exactly once, in ascending
order, and no other; it writes no cell, and without a calculation it reads none. -/
def Obligations.EngineReadsEachByteOnceInOrder : Prop :=
  (∀ (c : Config) (k : Kind) (len : Nat),
    ((List.range (nunits c len k.unitBytes)).flatMap (unitAddresses k.unitBytes)).filter (fun a => decide (a < len)) =
      List.range (min len (nunits c len k.unitBytes * k.unitBytes))) ∧
  (∀ s : State, s.busy = true → s.ucnt < s.unitCount →
    s.engineStep.buf = s.buf ∧
    s.engineStep.sum1 = BitVec.ofNat 32 ((s.sum1.toNat + assemble s.cfg.byteOrder
      ((unitAddresses s.kindr.unitBytes s.ucnt).map (padRead s.len s.buf))) % s.kindr.modulus)) ∧
  (∀ s : State, s.busy = false → s.engineStep = s)

/-- R31: word assembly for both byte orders, at every width, with the spec's examples. -/
def Obligations.WordAssembly : Prop :=
  (∀ p : List Byte,
    assemble .little p = ∑ j ∈ Finset.range p.length, (p.getD j 0#8).toNat <<< (8 * j) ∧
    assemble .big p = ∑ j ∈ Finset.range p.length, (p.getD j 0#8).toNat <<< (8 * (p.length - 1 - j))) ∧
  (∀ (o : ByteOrder) (b : Byte), assemble o [b] = b.toNat) ∧
  (∀ (o : ByteOrder) (p : List Byte), assemble o p < 2 ^ (8 * p.length)) ∧
  assemble .little [0x61#8, 0x62#8] = 0x6261 ∧ assemble .little [0x61#8, 0x62#8, 0x63#8, 0x64#8] = 0x64636261 ∧
  assemble .big [0x61#8, 0x62#8] = 0x6162 ∧ assemble .big [0x61#8, 0x62#8, 0x63#8, 0x64#8] = 0x61626364 ∧
  Config.default.byteOrder = .little

/-- R34: positions below LEN come from the buffer, the others are zero without an access; no cell at or above LEN matters;
how far the positions reach. -/
def Obligations.PaddingIsZeroAndTheTailIsNeverRead : Prop :=
  (∀ (len : Nat) (buf : Memory) (i : Nat),
    (∀ b, i < len → buf.read? i = some b → padRead len buf i = b) ∧ (len ≤ i → padRead len buf i = 0x00#8)) ∧
  (∀ (len : Nat) (buf buf' : Memory), (∀ i < len, buf.read? i = buf'.read? i) →
    ∀ (o : ByteOrder) (wb k : Nat), unitValue o wb len buf k = unitValue o wb len buf' k) ∧
  (∀ (c : Config) (k : Kind) (len : Nat),
    nunits c len k.unitBytes * k.unitBytes - 1 ≤ len + 4 ∧
    (c.padRule = .align → nunits c len k.unitBytes * k.unitBytes - 1 ≤ len + 2))

/-- R68: the number of units for every configuration, evaluated, and its bounds; an extra zero unit is not harmless. -/
def Obligations.UnitCountTable : Prop :=
  ∀ (c : Config) (l : Nat),
    nunits c l 1 = l ∧
    nunits c l 2 = l / 2 + (if l % 2 = 0 then 0 else 1) ∧
    (c.padRule = .align → nunits c l 4 = l / 4 + (if l % 4 = 0 then 0 else 1)) ∧
    (c.padRule = .literal → c.tailRule = .drop → nunits c l 4 = l / 4 + (if l % 4 = 2 ∨ l % 4 = 3 then 1 else 0)) ∧
    (c.padRule = .literal → c.tailRule = .keep →
      nunits c l 4 = l / 4 + (if l % 4 = 0 then 0 else if l % 4 = 3 then 2 else 1)) ∧
    (c.padRule = .literal → c.tailRule = .drop → l % 4 = 1 → nunits c l 4 * 4 = l - 1) ∧
    nunits c l 4 ≤ ceilDiv l 4 + 1 ∧ (nunits c l 4 = ceilDiv l 4 + 1 → 3 ≤ l) ∧
    (∀ k : Kind, nunits c l k.unitBytes ≤ l ∧ nunits c l k.unitBytes * k.unitBytes - 1 ≤ l + 4) ∧
    (∀ (m : Nat) (p : Nat × Nat), p.1 < m → fletcherUpdate m p 0 = (p.1, (p.2 + p.1) % m))

/-- R61: the unit the hardware forms when it needs it is the word of the source's packed sequence, for every buffer and
configuration; for Fletcher-16 it is the byte. -/
def Obligations.UnitsAreTheSourcesWords : Prop :=
  ∀ (c : Config) (k : Kind) (len : Nat) (buf : Memory),
    (List.range (nunits c len k.unitBytes)).map (unitValue c.byteOrder k.unitBytes len buf) =
      Reference.units c k ((List.range len).map (memRead buf)) ∧
    (∀ j : Nat,
      unitValue c.byteOrder k.unitBytes len buf j =
        assemble c.byteOrder ((List.range k.unitBytes).map fun i => padRead len buf (j * k.unitBytes + i)) ∧
      (k = .f16 → j < len → unitValue c.byteOrder k.unitBytes len buf j = (memRead buf j).toNat))

/-! ### Reset and the invariant -/

/-- R27: the state after reset, in every configuration; RESULT is unspecified: a read returns a free value. -/
def Obligations.ResetState : Prop :=
  (∀ c : Config,
    (State.resetWith c).busy = false ∧ (State.resetWith c).done = false ∧ (State.resetWith c).rkind.code = 0b00#2 ∧
    (State.resetWith c).statusWord = 0x00#8 ∧ (State.resetWith c).len = 0 ∧ (State.resetWith c).sum1 = 0#32 ∧
    (State.resetWith c).sum2 = 0#32 ∧ (State.resetWith c).ucnt = 0 ∧ (∀ i, (State.resetWith c).valid i = false) ∧
    hostOp .rctrl (State.resetWith c) = .next ((State.resetWith c).reply (.ctrl 0x00#8)) ∧
    hostOp .rresult (State.resetWith c) = .next (State.resetWith c).replyFree) ∧
  State.reset = State.resetWith Config.default

/-- R112, R113: the reset event at any moment, in any phase; a calculation it ends leaves no result; no host operation
leads to IDLE from another phase. -/
def Obligations.ResetEvent : Prop :=
  (∀ s : State, s.nextTurn = .reset → ∃ t : State, step s = .next t ∧
    t.cfg = s.cfg ∧ t.busy = false ∧ t.done = false ∧ t.rkind.code = 0b00#2 ∧ t.len = 0 ∧ t.sum1 = 0#32 ∧
    t.sum2 = 0#32 ∧ t.ucnt = 0 ∧ (∀ i, t.valid i = false) ∧ t.phase = .idle ∧ t.engineStep = t ∧
    hostOp .rstatus t = .next (t.reply (.status 0x00#8)) ∧ hostOp .rlen t = .next (t.reply (.len 0)) ∧
    hostOp .rctrl t = .next (t.reply (.ctrl 0x00#8)) ∧ hostOp .rresult t = .next t.replyFree) ∧
  (∀ (op : HostOp) (s t : State), hostOp op s = .next t → t.phase = s.phase ∨ t.phase = .run)

/-- The invariant holds after reset, in every configuration with LEN_BITS ≥ 1. -/
def Obligations.ResetSatisfiesTheInvariant : Prop :=
  (∀ c : Config, 1 ≤ c.lenBits → (State.resetWith c).Inv) ∧ State.reset.Inv

/-- Every step, of any agent, keeps the invariant. -/
def Obligations.StepKeepsTheInvariant : Prop :=
  ∀ s t : State, s.Inv → step s = .next t → t.Inv

/-- R75: the sums stay below M at every moment, no half of a check value is all ones, and the OR is an addition. -/
def Obligations.SumsStayReduced : Prop :=
  ∀ s : State, s.Inv →
    s.sum1.toNat ≤ s.kindr.modulus - 1 ∧ s.sum2.toNat ≤ s.kindr.modulus - 1 ∧
    s.sum1.toNat < 2 ^ s.kindr.unitBits - 1 ∧ s.sum2.toNat < 2 ^ s.kindr.unitBits - 1 ∧
    (checkWord s.kindr s.sum1 s.sum2).toNat = s.sum2.toNat * 2 ^ s.kindr.unitBits + s.sum1.toNat ∧
    (s.kindr = .f16 → (checkWord s.kindr s.sum1 s.sum2).toNat ≤ 0xFEFE) ∧
    (s.kindr = .f32 → (checkWord s.kindr s.sum1 s.sum2).toNat ≤ 0xFFFEFFFE) ∧
    (s.kindr = .f64 → (checkWord s.kindr s.sum1 s.sum2).toNat ≤ 0xFFFFFFFEFFFFFFFE) ∧
    ∀ t : State, step s = .next t → t.sum1.toNat ≤ t.kindr.modulus - 1 ∧ t.sum2.toNat ≤ t.kindr.modulus - 1

/-- R76: the sums before reduction fit UB + 1 bits, and reduction is at most one conditional subtraction, giving the
canonical remainder. -/
def Obligations.ReductionIsOneConditionalSubtraction : Prop :=
  ∀ (s : State) (k : Nat), s.Inv →
    (let m := s.kindr.modulus
     let x := s.sum1.toNat + s.unit k
     let y := s.sum2.toNat + x % m
     x ≤ 2 ^ (s.kindr.unitBits + 1) - 3 ∧ y ≤ 2 ^ (s.kindr.unitBits + 1) - 4 ∧
     x % m = (if m ≤ x then x - m else x) ∧ y % m = (if m ≤ y then y - m else y) ∧ x % m < m ∧ y % m < m)

/-- R50, R51: while DONE = 1, RESULT holds the second sum above the first, and zeros above the check value's C bits. -/
def Obligations.ResultLayout : Prop :=
  ∀ s : State, s.Inv → s.done = true →
    s.result.toNat % 2 ^ s.rkind.unitBits = s.sum1.toNat ∧
    s.result.toNat / 2 ^ s.rkind.unitBits = s.sum2.toNat ∧
    s.result.toNat < 2 ^ s.rkind.checkBits

/-! ### Whole-machine rules -/

/-- R86: the three phases, and the only transitions between them. -/
def Obligations.PhaseTransitions : Prop :=
  ∀ s t : State, s.Inv → step s = .next t →
    (s.phase = .idle ↔ s.busy = false ∧ s.done = false) ∧
    (s.phase = .run ↔ s.busy = true ∧ s.done = false) ∧
    (s.phase = .done ↔ s.busy = false ∧ s.done = true) ∧
    (t.phase = s.phase ∨
      (s.phase ≠ .run ∧ t.phase = .run ∧ s.nextTurn = .host ∧ ∃ (i : Instr) (v : Nat) (ops : List HostOp),
        s.program = .writeReg 0 v :: ops ∧ (v < 2 ^ 8 → decode (BitVec.ofNat 8 v) = .command i) ∧
        t = ({ s with program := ops, schedule := s.schedule.tail } : State).accept i.kind) ∨
      (s.phase = .run ∧ t.phase = .done ∧ s.nextTurn = .engine ∧ s.ucnt = s.unitCount ∧
        t = ({ s with schedule := s.schedule.tail } : State).finalise) ∨
      (t.phase = .idle ∧ s.nextTurn = .reset))

/-- R17, R116: a result stays readable and unchanged until the next accepted command or a reset. -/
def Obligations.ResultIsHeldUntilTheNextCommand : Prop :=
  ∀ s t : State, s.Inv → s.done = true → step s = .next t →
    (t.done = true ∧ t.result = s.result ∧ t.rkind = s.rkind) ∨
    (t.done = false ∧ t.busy = true ∧ s.nextTurn = .host ∧ ∃ (v : Nat) (ops : List HostOp),
      s.program = .writeReg 0 v :: ops) ∨
    (t.done = false ∧ t.busy = false ∧ s.nextTurn = .reset)

/-- R14: UCNT is set to 0 by acceptance (and reset), incremented by 1 by a unit step, changed by nothing else, and never
wraps. -/
def Obligations.UnitCounterNeverWraps : Prop :=
  ∀ s t : State, s.Inv → step s = .next t →
    t.ucnt ≤ t.cfg.bufMax ∧ (t.busy = true → t.ucnt ≤ t.unitCount) ∧
    (t.ucnt = s.ucnt ∨
      (t.ucnt = s.ucnt + 1 ∧ s.nextTurn = .engine ∧ s.busy = true ∧ s.ucnt < s.unitCount) ∨
      (t.ucnt = 0 ∧ (s.nextTurn = .reset ∨ (s.nextTurn = .host ∧ s.busy = false ∧ t.busy = true))))

/-- R22: LEN is written only by WLEN while BUSY = 0 and by reset, never by the engine, and stays in its range (the range
under an operand wider than LEN is the model's choice, log 10). -/
def Obligations.LenChangesOnlyByWlen : Prop :=
  ∀ s t : State, step s = .next t →
    (s.len ≤ s.cfg.bufMax → t.len ≤ t.cfg.bufMax) ∧
    (t.len = s.len ∨ (t.len = 0 ∧ s.nextTurn = .reset) ∨
      (s.nextTurn = .host ∧ s.busy = false ∧ ∃ (v : Nat) (ops : List HostOp),
        s.program = .writeReg 1 v :: ops ∧ t.len ≤ s.cfg.bufMax ∧ (v ≤ s.cfg.bufMax → t.len = v)))

/-- R25: a cell becomes valid by the host's write of it, and all cells stop being valid at reset and at a finalisation
step; nothing else changes BUF or VALID. -/
def Obligations.BufferChangesOnlyByItsOwner : Prop :=
  ∀ s t : State, step s = .next t →
    (∀ a, t.buf.read? a = s.buf.read? a ∧ t.valid a = s.valid a) ∨
    (s.nextTurn = .host ∧ s.busy = false ∧ ∃ (i : Nat) (b : Byte) (ops : List HostOp),
      s.program = .wbuf i b :: ops ∧ i < s.cfg.bufMax ∧ t.buf.read? i = some b ∧ t.valid i = true ∧
      ∀ a, a ≠ i → t.buf.read? a = s.buf.read? a ∧ t.valid a = s.valid a) ∨
    ((∀ a, t.valid a = false) ∧
      (s.nextTurn = .reset ∨ (s.nextTurn = .engine ∧ s.busy = true ∧ s.ucnt = s.unitCount)))

/-- No step writes the configuration: the parameters are static and byte order is not switched at run time (R4, R32). -/
def Obligations.ConfigurationNeverChanges : Prop :=
  ∀ s t : State, step s = .next t → t.cfg = s.cfg

/-- The model's order of turns (log 3): the schedule's next entry; without one, the engine while BUSY = 1, else the host;
a host with nothing left to do lets its turn pass. -/
def Obligations.TurnsAreTakenInOrder : Prop :=
  ∀ s : State,
    (∀ (x : Turn) (rest : List Turn), s.schedule = x :: rest → s.nextTurn = x) ∧
    (s.schedule = [] → s.busy = true → s.nextTurn = .engine) ∧
    (s.schedule = [] → s.busy = false → s.nextTurn = .host) ∧
    (s.nextTurn = .host → s.program = [] → step s = .next { s with schedule := s.schedule.tail }) ∧
    (∀ (op : HostOp) (ops : List HostOp), s.nextTurn = .host → s.program = op :: ops →
      step s = hostOp op { s with program := ops, schedule := s.schedule.tail })

/-! ### Calculations -/

/-- R97: from the acceptance on, whatever host operations are interleaved, the calculation takes exactly `n` unit steps and
one finalisation step; before that the block is busy with the units counted, and after it the result is the check value. -/
def Obligations.InterleavingDoesNotMatter : Prop :=
  ∀ (s t u : State) (i : Instr) (turns rest : List Turn),
    s.busy = false → (∀ j < s.len, s.valid j = true) → exec i s = .next t → (∀ x ∈ turns, x ≠ .reset) →
    run turns.length { t with schedule := turns ++ rest } = .next u →
    (turns.count .engine ≤ nunits s.cfg s.len i.kind.unitBytes →
      u.busy = true ∧ u.done = false ∧ u.rkind = s.rkind ∧ u.ucnt = turns.count .engine ∧ u.len = s.len ∧
      u.kindr = i.kind ∧ u.buf = s.buf) ∧
    (turns.count .engine = nunits s.cfg s.len i.kind.unitBytes + 1 → turns.getLast? = some .engine →
      u.busy = false ∧ u.done = true ∧ u.rkind = i.kind ∧
      u.result = BitVec.ofNat 64 (Reference.checksum s.cfg i.kind s.byteBuffer))

/-- Every running calculation ends with its check value (R81, R96, R120): under every schedule without a reset, whatever
operations of its interface the host performs, within as many steps as the schedule has turns and the engine steps left. -/
def Obligations.EveryCalculationEnds : Prop :=
  ∀ s : State, s.Inv → s.busy = true → (∀ x ∈ s.schedule, x ≠ .reset) →
    (∀ op ∈ s.program, op.wellFormed s.cfg = true) →
    ∃ (k : Nat) (u : State), k ≤ s.schedule.length + (s.unitCount - s.ucnt) + 1 ∧ run k s = .next u ∧
      u.busy = false ∧ u.done = true ∧ u.rkind = s.kindr ∧
      u.result = BitVec.ofNat 64 (Reference.checksum s.cfg s.kindr s.byteBuffer)

/-- The hidden registers leak nothing from one calculation to what follows (R26, R28): with BUSY = 0, whatever they hold,
and whatever RESULT holds while DONE = 0, every run gives the host the same replies and the same visible state. -/
def Obligations.HiddenRegistersDoNotLeak : Prop :=
  ∀ (s : State) (a b : SumWord) (n : Nat) (k : Kind) (x : ResultWord) (j : Nat), s.busy = false →
    (let s' := { s with sum1 := a, sum2 := b, ucnt := n, kindr := k, result := if s.done then s.result else x }
     (∀ r, run j s = .refused r ↔ run j s' = .refused r) ∧
     ∀ u, run j s = .next u → ∃ u', run j s' = .next u' ∧
       u'.replies = u.replies ∧ u'.statusWord = u.statusWord ∧ u'.len = u.len ∧
       (u.done = true → u'.result = u.result))

/-- No intermediate value of a calculation is observable (R100): two running calculations that differ only in the buffer's
bytes and the sums give the host the same replies for as long as they run. -/
def Obligations.PartialSumsAreNotObservable : Prop :=
  ∀ (s : State) (a b : SumWord) (m : Memory) (j : Nat) (u : State),
    (∀ l ≤ j, ∀ v, run l s = .next v → v.busy = true) → run j s = .next u →
    ∃ u', run j { s with sum1 := a, sum2 := b, buf := m } = .next u' ∧
      u'.replies = u.replies ∧ u'.statusWord = u.statusWord ∧ u'.len = u.len ∧ u'.ucnt = u.ucnt

/-- The procedure of R114 (LOAD, a command, WAIT, RRESULT: the CALC operations of R55), from any state with no calculation
running, under every schedule without a reset: the host ends with a STATUS that has DONE and the kind, and then the check
value. -/
def Obligations.CalcDeliversTheCheckValue : Prop :=
  ∀ (s : State) (i : Instr) (bytes : List Byte),
    s.Inv → s.busy = false → (∀ x ∈ s.schedule, x ≠ .reset) → bytes.length ≤ s.cfg.bufMax →
    ∃ (k : Nat) (u : State) (v : Byte) (older : List Reply),
      run k { s with program := HostOp.calc i bytes } = .next u ∧ u.program = [] ∧
      u.replies = .result (BitVec.ofNat 64 (Reference.checksum s.cfg i.kind bytes)) :: .status v :: older ∧
      doneBit v = true ∧ v.extractLsb' 2 2 = i.kind.code
end

