-- ==== Sys2Proof/Laws/Memory.lean ====
section
/-! SUPPORT. The operand buffer: a read after a write, canonical form, and the cells a write can list. -/

namespace Sys2Proof.Machine.Memory

@[simp] theorem read_nil (a : Nat) : Memory.read? [] a = none := rfl

@[simp] theorem valid_nil (a : Nat) : Memory.valid [] a = false := rfl

theorem valid_iff (m : Memory) (a : Nat) : m.valid a = true ↔ ∃ b, m.read? a = some b := by
  simp [Memory.valid, Option.isSome_iff_exists]

/-- A read after a write to the same cell gives the byte written. -/
@[simp] theorem read_write_same (m : Memory) (a : Nat) (b : Byte) : (m.write a b).read? a = some b := by
  induction m with
  | nil => simp [Memory.write, Memory.read?]
  | cons c m ih =>
    simp only [Memory.write]
    split
    · simp [Memory.read?]
    · split
      · simp [Memory.read?]
      · rename_i h1 h2
        have : ¬ c.1 = a := fun h => h2 h.symm
        simp [Memory.read?, this, ih]

/-- A write leaves every other cell alone. -/
theorem read_write_other (m : Memory) (a a' : Nat) (b : Byte) (h : a' ≠ a) :
    (m.write a b).read? a' = m.read? a' := by
  have h' : ¬ a = a' := fun e => h e.symm
  induction m with
  | nil => simp [Memory.write, Memory.read?, h']
  | cons c m ih =>
    simp only [Memory.write]
    split
    · simp [Memory.read?, h']
    · split
      · rename_i h1 h2
        have : ¬ c.1 = a' := fun e => h' (h2.trans e)
        simp [Memory.read?, h', this]
      · simp only [Memory.read?]
        rw [ih]

theorem read_write (m : Memory) (a a' : Nat) (b : Byte) :
    (m.write a b).read? a' = if a' = a then some b else m.read? a' := by
  split
  · subst a'; simp
  · rename_i h; exact read_write_other m a a' b h

theorem valid_write (m : Memory) (a a' : Nat) (b : Byte) :
    (m.write a b).valid a' = (decide (a' = a) || m.valid a') := by
  simp only [Memory.valid, read_write]
  split <;> simp_all

/-- A write lists no cell but the old ones and its own. -/
theorem mem_write {m : Memory} {a : Nat} {b : Byte} {x : Host.Cell} (h : x ∈ m.write a b) :
    x = (a, b) ∨ x ∈ m := by
  induction m with
  | nil => simpa [Memory.write] using h
  | cons c m ih =>
    simp only [Memory.write] at h
    split at h
    · simpa using h
    · split at h
      · rcases List.mem_cons.1 h with h | h
        · exact .inl h
        · exact .inr (List.mem_cons_of_mem _ h)
      · rcases List.mem_cons.1 h with h | h
        · exact .inr (h ▸ List.mem_cons_self)
        · exact (ih h).imp id (List.mem_cons_of_mem _)

/-- Every write keeps the canonical form. -/
theorem wf_write {m : Memory} (hm : m.wf) (a : Nat) (b : Byte) : (m.write a b).wf := by
  induction m with
  | nil => simp [Memory.write]
  | cons c m ih =>
    obtain ⟨hc, hm'⟩ := List.pairwise_cons.1 hm
    simp only [Memory.write]
    split
    · rename_i h
      refine List.pairwise_cons.2 ⟨fun x hx => ?_, hm⟩
      rcases List.mem_cons.1 hx with rfl | hx
      · exact h
      · exact h.trans (hc x hx)
    · split
      · rename_i h1 h2
        exact List.pairwise_cons.2 ⟨fun x hx => by have := hc x hx; simp only; omega, hm'⟩
      · rename_i h1 h2
        refine List.pairwise_cons.2 ⟨fun x hx => ?_, ih hm'⟩
        rcases mem_write hx with rfl | hx
        · simp only; omega
        · exact hc x hx

theorem wf_discarded : Memory.discarded.wf := List.Pairwise.nil

/-- A cell below every listed one is not listed. -/
theorem read_eq_none_of_lt {m : Memory} {a : Nat} (h : ∀ x ∈ m, a < x.1) : m.read? a = none := by
  induction m with
  | nil => rfl
  | cons c m ih =>
    have hc := h c List.mem_cons_self
    have : ¬ c.1 = a := by omega
    simp only [Memory.read?, this, if_false]
    exact ih fun x hx => h x (List.mem_cons_of_mem _ hx)

/-- Two canonical buffers with the same reads are the same data. -/
theorem ext_of_wf {m m' : Memory} (hm : m.wf) (hm' : m'.wf) (h : ∀ a, m.read? a = m'.read? a) : m = m' := by
  induction m generalizing m' with
  | nil =>
    cases m' with
    | nil => rfl
    | cons c m' => simpa [Memory.read?] using h c.1
  | cons c m ih =>
    obtain ⟨hc, hm1⟩ := List.pairwise_cons.1 hm
    cases m' with
    | nil => simpa [Memory.read?] using h c.1
    | cons d m' =>
      obtain ⟨hd, hm2⟩ := List.pairwise_cons.1 hm'
      have hcd : c.1 = d.1 := by
        rcases Nat.lt_trichotomy c.1 d.1 with hlt | heq | hlt
        · have h1 := h c.1
          have h2 : Memory.read? (d :: m') c.1 = none := read_eq_none_of_lt fun x hx => by
            rcases List.mem_cons.1 hx with rfl | hx
            · exact hlt
            · exact hlt.trans (hd x hx)
          rw [h2] at h1
          simp [Memory.read?] at h1
        · exact heq
        · have h1 := h d.1
          have h2 : Memory.read? (c :: m) d.1 = none := read_eq_none_of_lt fun x hx => by
            rcases List.mem_cons.1 hx with rfl | hx
            · exact hlt
            · exact hlt.trans (hc x hx)
          rw [h2] at h1
          simp [Memory.read?] at h1
      have hval : c = d := by
        have h1 := h c.1
        simp only [Memory.read?, if_true, hcd.symm] at h1
        exact Prod.ext hcd (by simpa using h1)
      subst hval
      congr 1
      refine ih hm1 hm2 fun a => ?_
      by_cases ha : c.1 = a
      · subst ha
        rw [read_eq_none_of_lt fun x hx => hc x hx, read_eq_none_of_lt fun x hx => hd x hx]
      · have h1 := h a
        simpa [Memory.read?, ha] using h1

/-- Writes to different cells may come in either order (R87). -/
theorem write_comm {m : Memory} (hm : m.wf) {a a' : Nat} (b b' : Byte) (h : a ≠ a') :
    (m.write a b).write a' b' = (m.write a' b').write a b := by
  refine ext_of_wf (wf_write (wf_write hm _ _) _ _) (wf_write (wf_write hm _ _) _ _) fun x => ?_
  simp only [read_write]
  by_cases h1 : x = a' <;> by_cases h2 : x = a <;> simp_all

/-- The last of two writes to one cell wins (R87). -/
theorem write_write {m : Memory} (hm : m.wf) (a : Nat) (b b' : Byte) :
    (m.write a b).write a b' = m.write a b' := by
  refine ext_of_wf (wf_write (wf_write hm _ _) _ _) (wf_write hm _ _) fun x => ?_
  simp only [read_write]
  split <;> rfl

end Sys2Proof.Machine.Memory
end

