-- ==== Sys2Proof/Laws/Operands.lean ====
section
/-! SUPPORT. Constants of a kind, the packer, and the source's packer. -/

namespace Sys2Proof

@[simp] theorem unitBits_f16 : Kind.unitBits .f16 = 8 := rfl
@[simp] theorem unitBits_f32 : Kind.unitBits .f32 = 16 := rfl
@[simp] theorem unitBits_f64 : Kind.unitBits .f64 = 32 := rfl
@[simp] theorem unitBytes_f16 : Kind.unitBytes .f16 = 1 := rfl
@[simp] theorem unitBytes_f32 : Kind.unitBytes .f32 = 2 := rfl
@[simp] theorem unitBytes_f64 : Kind.unitBytes .f64 = 4 := rfl
@[simp] theorem modulus_f16 : Kind.modulus .f16 = 255 := rfl
@[simp] theorem modulus_f32 : Kind.modulus .f32 = 65535 := rfl
@[simp] theorem modulus_f64 : Kind.modulus .f64 = 4294967295 := rfl

theorem Kind.modulus_pos (k : Kind) : 0 < k.modulus := by cases k <;> decide

theorem Kind.modulus_lt (k : Kind) : k.modulus < 2 ^ k.unitBits := by cases k <;> decide

theorem Kind.modulus_le (k : Kind) : k.modulus ≤ 4294967295 := by cases k <;> decide

namespace Machine

theorem ceilDiv_one (a : Nat) : ceilDiv a 1 = a := by simp [ceilDiv]

theorem assembleLittle_lt (p : List Byte) : assembleLittle p < 2 ^ (8 * p.length) := by
  induction p with
  | nil => simp [assembleLittle]
  | cons b bs ih =>
    have hb := b.isLt
    have he : 2 ^ (8 * (bs.length + 1)) = 2 ^ 8 * 2 ^ (8 * bs.length) := by
      rw [← Nat.pow_add]; congr 1; omega
    simp only [assembleLittle, List.length_cons, he]
    omega

/-- A word of `p.length` bytes fits its bits (R31). -/
theorem assemble_lt (o : ByteOrder) (p : List Byte) : assemble o p < 2 ^ (8 * p.length) := by
  cases o
  · exact assembleLittle_lt p
  · simpa [assemble] using assembleLittle_lt p.reverse

@[simp] theorem unitAddresses_length (wb k : Nat) : (unitAddresses wb k).length = wb := by
  simp [unitAddresses]

theorem unitValue_lt (o : ByteOrder) (wb len : Nat) (buf : Memory) (k : Nat) :
    unitValue o wb len buf k < 2 ^ (8 * wb) := by
  simpa [unitValue] using assemble_lt o ((unitAddresses wb k).map (padRead len buf))

/-- The units of a calculation read the buffer below LEN alone (R34). -/
theorem padRead_congr {len : Nat} {buf buf' : Memory} (h : ∀ i < len, buf.read? i = buf'.read? i) (i : Nat) :
    padRead len buf i = padRead len buf' i := by
  unfold padRead memRead
  split
  · rename_i hi; rw [h i hi]
  · rfl

theorem unitValue_congr {len : Nat} {buf buf' : Memory} (h : ∀ i < len, buf.read? i = buf'.read? i)
    (o : ByteOrder) (wb k : Nat) : unitValue o wb len buf k = unitValue o wb len buf' k := by
  simp only [unitValue]
  congr 1
  exact List.map_congr_left fun i _ => padRead_congr h i

theorem unitValue_one (o : ByteOrder) (len : Nat) (buf : Memory) (k : Nat) :
    unitValue o 1 len buf k = (padRead len buf k).toNat := by
  cases o <;> simp [unitValue, unitAddresses, assemble, assembleLittle]

/-- The number of units never exceeds LEN, so UCNT never overflows (R68). -/
theorem nunits_le (c : Config) (l : Nat) (k : Kind) : nunits c l k.unitBytes ≤ l := by
  obtain ⟨bo, pr, tr, n⟩ := c
  cases k <;> cases pr <;> cases tr <;> simp only [nunits, ceilDiv, unitBytes_f16, unitBytes_f32, unitBytes_f64] <;> omega

end Machine

namespace Reference

open Sys2Proof.Machine

@[simp] theorem sums_nil (m : Nat) : sums m [] = (0, 0) := rfl

/-- The sums after one more unit (R73). -/
theorem sums_snoc (m : Nat) (us : List Nat) (u : Nat) :
    sums m (us ++ [u]) =
      (((sums m us).1 + u) % m, ((sums m us).2 + ((sums m us).1 + u) % m) % m) := by
  simp [sums, List.foldl_append]

theorem sums_lt {m : Nat} (hm : 0 < m) (us : List Nat) : (sums m us).1 < m ∧ (sums m us).2 < m := by
  induction us using List.reverseRecOn with
  | nil => exact ⟨hm, hm⟩
  | append_singleton us u _ =>
    rw [sums_snoc]
    exact ⟨Nat.mod_lt _ hm, Nat.mod_lt _ hm⟩

end Reference
end Sys2Proof
end

