-- ==== Sys2Proof/Laws/State.lean ====
section
/-! SUPPORT. One lemma per field per named update of the state, true by rfl. -/

namespace Sys2Proof.Machine.State

section setLen
variable (s : State) (n : Nat)
@[simp] theorem setLen_cfg : (s.setLen n).cfg = s.cfg := rfl
@[simp] theorem setLen_sum1 : (s.setLen n).sum1 = s.sum1 := rfl
@[simp] theorem setLen_sum2 : (s.setLen n).sum2 = s.sum2 := rfl
@[simp] theorem setLen_ucnt : (s.setLen n).ucnt = s.ucnt := rfl
@[simp] theorem setLen_kindr : (s.setLen n).kindr = s.kindr := rfl
@[simp] theorem setLen_busy : (s.setLen n).busy = s.busy := rfl
@[simp] theorem setLen_done : (s.setLen n).done = s.done := rfl
@[simp] theorem setLen_rkind : (s.setLen n).rkind = s.rkind := rfl
@[simp] theorem setLen_len : (s.setLen n).len = n % 2 ^ s.cfg.lenBits := rfl
@[simp] theorem setLen_result : (s.setLen n).result = s.result := rfl
@[simp] theorem setLen_buf : (s.setLen n).buf = s.buf := rfl
@[simp] theorem setLen_program : (s.setLen n).program = s.program := rfl
@[simp] theorem setLen_schedule : (s.setLen n).schedule = s.schedule := rfl
@[simp] theorem setLen_replies : (s.setLen n).replies = s.replies := rfl
@[simp] theorem setLen_draws : (s.setLen n).draws = s.draws := rfl
end setLen

section storeByte
variable (s : State) (i : Nat) (b : Byte)
@[simp] theorem storeByte_cfg : (s.storeByte i b).cfg = s.cfg := rfl
@[simp] theorem storeByte_sum1 : (s.storeByte i b).sum1 = s.sum1 := rfl
@[simp] theorem storeByte_sum2 : (s.storeByte i b).sum2 = s.sum2 := rfl
@[simp] theorem storeByte_ucnt : (s.storeByte i b).ucnt = s.ucnt := rfl
@[simp] theorem storeByte_kindr : (s.storeByte i b).kindr = s.kindr := rfl
@[simp] theorem storeByte_busy : (s.storeByte i b).busy = s.busy := rfl
@[simp] theorem storeByte_done : (s.storeByte i b).done = s.done := rfl
@[simp] theorem storeByte_rkind : (s.storeByte i b).rkind = s.rkind := rfl
@[simp] theorem storeByte_len : (s.storeByte i b).len = s.len := rfl
@[simp] theorem storeByte_result : (s.storeByte i b).result = s.result := rfl
@[simp] theorem storeByte_buf : (s.storeByte i b).buf = s.buf.write i b := rfl
@[simp] theorem storeByte_program : (s.storeByte i b).program = s.program := rfl
@[simp] theorem storeByte_schedule : (s.storeByte i b).schedule = s.schedule := rfl
@[simp] theorem storeByte_replies : (s.storeByte i b).replies = s.replies := rfl
@[simp] theorem storeByte_draws : (s.storeByte i b).draws = s.draws := rfl
end storeByte

section reply
variable (s : State) (r : Reply)
@[simp] theorem reply_cfg : (s.reply r).cfg = s.cfg := rfl
@[simp] theorem reply_sum1 : (s.reply r).sum1 = s.sum1 := rfl
@[simp] theorem reply_sum2 : (s.reply r).sum2 = s.sum2 := rfl
@[simp] theorem reply_ucnt : (s.reply r).ucnt = s.ucnt := rfl
@[simp] theorem reply_kindr : (s.reply r).kindr = s.kindr := rfl
@[simp] theorem reply_busy : (s.reply r).busy = s.busy := rfl
@[simp] theorem reply_done : (s.reply r).done = s.done := rfl
@[simp] theorem reply_rkind : (s.reply r).rkind = s.rkind := rfl
@[simp] theorem reply_len : (s.reply r).len = s.len := rfl
@[simp] theorem reply_result : (s.reply r).result = s.result := rfl
@[simp] theorem reply_buf : (s.reply r).buf = s.buf := rfl
@[simp] theorem reply_program : (s.reply r).program = s.program := rfl
@[simp] theorem reply_schedule : (s.reply r).schedule = s.schedule := rfl
@[simp] theorem reply_replies : (s.reply r).replies = r :: s.replies := rfl
@[simp] theorem reply_draws : (s.reply r).draws = s.draws := rfl
end reply

section replyFree
variable (s : State)
@[simp] theorem replyFree_cfg : s.replyFree.cfg = s.cfg := rfl
@[simp] theorem replyFree_sum1 : s.replyFree.sum1 = s.sum1 := rfl
@[simp] theorem replyFree_sum2 : s.replyFree.sum2 = s.sum2 := rfl
@[simp] theorem replyFree_ucnt : s.replyFree.ucnt = s.ucnt := rfl
@[simp] theorem replyFree_kindr : s.replyFree.kindr = s.kindr := rfl
@[simp] theorem replyFree_busy : s.replyFree.busy = s.busy := rfl
@[simp] theorem replyFree_done : s.replyFree.done = s.done := rfl
@[simp] theorem replyFree_rkind : s.replyFree.rkind = s.rkind := rfl
@[simp] theorem replyFree_len : s.replyFree.len = s.len := rfl
@[simp] theorem replyFree_result : s.replyFree.result = s.result := rfl
@[simp] theorem replyFree_buf : s.replyFree.buf = s.buf := rfl
@[simp] theorem replyFree_program : s.replyFree.program = s.program := rfl
@[simp] theorem replyFree_schedule : s.replyFree.schedule = s.schedule := rfl
@[simp] theorem replyFree_replies : s.replyFree.replies = .result (Config.freeResult s.draws) :: s.replies := rfl
@[simp] theorem replyFree_draws : s.replyFree.draws = s.draws + 1 := rfl
end replyFree

section accept
variable (s : State) (k : Kind)
@[simp] theorem accept_cfg : (s.accept k).cfg = s.cfg := rfl
@[simp] theorem accept_sum1 : (s.accept k).sum1 = 0#32 := rfl
@[simp] theorem accept_sum2 : (s.accept k).sum2 = 0#32 := rfl
@[simp] theorem accept_ucnt : (s.accept k).ucnt = 0 := rfl
@[simp] theorem accept_kindr : (s.accept k).kindr = k := rfl
@[simp] theorem accept_busy : (s.accept k).busy = true := rfl
@[simp] theorem accept_done : (s.accept k).done = false := rfl
@[simp] theorem accept_rkind : (s.accept k).rkind = s.rkind := rfl
@[simp] theorem accept_len : (s.accept k).len = s.len := rfl
@[simp] theorem accept_result : (s.accept k).result = s.result := rfl
@[simp] theorem accept_buf : (s.accept k).buf = s.buf := rfl
@[simp] theorem accept_program : (s.accept k).program = s.program := rfl
@[simp] theorem accept_schedule : (s.accept k).schedule = s.schedule := rfl
@[simp] theorem accept_replies : (s.accept k).replies = s.replies := rfl
@[simp] theorem accept_draws : (s.accept k).draws = s.draws := rfl
end accept

section unitStep
variable (s : State)
@[simp] theorem unitStep_cfg : s.unitStep.cfg = s.cfg := rfl
@[simp] theorem unitStep_sum1 : s.unitStep.sum1 = BitVec.ofNat 32 (fletcherUpdate s.kindr.modulus (s.sum1.toNat, s.sum2.toNat) (s.unit s.ucnt)).1 := rfl
@[simp] theorem unitStep_sum2 : s.unitStep.sum2 = BitVec.ofNat 32 (fletcherUpdate s.kindr.modulus (s.sum1.toNat, s.sum2.toNat) (s.unit s.ucnt)).2 := rfl
@[simp] theorem unitStep_ucnt : s.unitStep.ucnt = s.ucnt + 1 := rfl
@[simp] theorem unitStep_kindr : s.unitStep.kindr = s.kindr := rfl
@[simp] theorem unitStep_busy : s.unitStep.busy = s.busy := rfl
@[simp] theorem unitStep_done : s.unitStep.done = s.done := rfl
@[simp] theorem unitStep_rkind : s.unitStep.rkind = s.rkind := rfl
@[simp] theorem unitStep_len : s.unitStep.len = s.len := rfl
@[simp] theorem unitStep_result : s.unitStep.result = s.result := rfl
@[simp] theorem unitStep_buf : s.unitStep.buf = s.buf := rfl
@[simp] theorem unitStep_program : s.unitStep.program = s.program := rfl
@[simp] theorem unitStep_schedule : s.unitStep.schedule = s.schedule := rfl
@[simp] theorem unitStep_replies : s.unitStep.replies = s.replies := rfl
@[simp] theorem unitStep_draws : s.unitStep.draws = s.draws := rfl
end unitStep

section finalise
variable (s : State)
@[simp] theorem finalise_cfg : s.finalise.cfg = s.cfg := rfl
@[simp] theorem finalise_sum1 : s.finalise.sum1 = s.sum1 := rfl
@[simp] theorem finalise_sum2 : s.finalise.sum2 = s.sum2 := rfl
@[simp] theorem finalise_ucnt : s.finalise.ucnt = s.ucnt := rfl
@[simp] theorem finalise_kindr : s.finalise.kindr = s.kindr := rfl
@[simp] theorem finalise_busy : s.finalise.busy = false := rfl
@[simp] theorem finalise_done : s.finalise.done = true := rfl
@[simp] theorem finalise_rkind : s.finalise.rkind = s.kindr := rfl
@[simp] theorem finalise_len : s.finalise.len = s.len := rfl
@[simp] theorem finalise_result : s.finalise.result = checkWord s.kindr s.sum1 s.sum2 := rfl
@[simp] theorem finalise_buf : s.finalise.buf = [] := rfl
@[simp] theorem finalise_program : s.finalise.program = s.program := rfl
@[simp] theorem finalise_schedule : s.finalise.schedule = s.schedule := rfl
@[simp] theorem finalise_replies : s.finalise.replies = s.replies := rfl
@[simp] theorem finalise_draws : s.finalise.draws = s.draws := rfl
end finalise

section resetBlock
variable (s : State)
@[simp] theorem resetBlock_cfg : s.resetBlock.cfg = s.cfg := rfl
@[simp] theorem resetBlock_sum1 : s.resetBlock.sum1 = 0#32 := rfl
@[simp] theorem resetBlock_sum2 : s.resetBlock.sum2 = 0#32 := rfl
@[simp] theorem resetBlock_ucnt : s.resetBlock.ucnt = 0 := rfl
@[simp] theorem resetBlock_kindr : s.resetBlock.kindr = .f16 := rfl
@[simp] theorem resetBlock_busy : s.resetBlock.busy = false := rfl
@[simp] theorem resetBlock_done : s.resetBlock.done = false := rfl
@[simp] theorem resetBlock_rkind : s.resetBlock.rkind = .f16 := rfl
@[simp] theorem resetBlock_len : s.resetBlock.len = 0 := rfl
@[simp] theorem resetBlock_result : s.resetBlock.result = 0#64 := rfl
@[simp] theorem resetBlock_buf : s.resetBlock.buf = [] := rfl
@[simp] theorem resetBlock_program : s.resetBlock.program = s.program := rfl
@[simp] theorem resetBlock_schedule : s.resetBlock.schedule = s.schedule := rfl
@[simp] theorem resetBlock_replies : s.resetBlock.replies = s.replies := rfl
@[simp] theorem resetBlock_draws : s.resetBlock.draws = s.draws := rfl
end resetBlock

section resetWith
variable (c : Config)
@[simp] theorem resetWith_cfg : (resetWith c).cfg = c := rfl
@[simp] theorem resetWith_sum1 : (resetWith c).sum1 = 0#32 := rfl
@[simp] theorem resetWith_sum2 : (resetWith c).sum2 = 0#32 := rfl
@[simp] theorem resetWith_ucnt : (resetWith c).ucnt = 0 := rfl
@[simp] theorem resetWith_kindr : (resetWith c).kindr = .f16 := rfl
@[simp] theorem resetWith_busy : (resetWith c).busy = false := rfl
@[simp] theorem resetWith_done : (resetWith c).done = false := rfl
@[simp] theorem resetWith_rkind : (resetWith c).rkind = .f16 := rfl
@[simp] theorem resetWith_len : (resetWith c).len = 0 := rfl
@[simp] theorem resetWith_result : (resetWith c).result = 0#64 := rfl
@[simp] theorem resetWith_buf : (resetWith c).buf = [] := rfl
@[simp] theorem resetWith_program : (resetWith c).program = [] := rfl
@[simp] theorem resetWith_schedule : (resetWith c).schedule = [] := rfl
@[simp] theorem resetWith_replies : (resetWith c).replies = [] := rfl
@[simp] theorem resetWith_draws : (resetWith c).draws = 0 := rfl
end resetWith

end Sys2Proof.Machine.State
end

