-- ==== Sys2Proof/Laws/Ops.lean ====
section
/-! SUPPORT. Command issue, the units of a state, and the check value's word. -/

namespace Sys2Proof.Machine

theorem State.loaded_iff (s : State) : s.loaded = true ↔ ∀ i < s.len, s.valid i = true := by
  simp [State.loaded, List.all_eq_true]

theorem State.loaded_eq_false_iff (s : State) : s.loaded = false ↔ ∃ i < s.len, s.valid i = false := by
  rw [← Bool.not_eq_true, State.loaded_iff]
  simp

/-- Every command is the shared issue of its kind. -/
theorem exec_eq_issue (i : Instr) (s : State) : exec i s = issue i.kind s := by cases i <;> rfl

theorem issue_busy {s : State} (k : Kind) (h : s.busy = true) : issue k s = .next s := by simp [issue, h]

theorem issue_loaded {s : State} (k : Kind) (h : s.busy = false) (hl : s.loaded = true) :
    issue k s = .next (s.accept k) := by simp [issue, h, hl]

theorem issue_not_loaded {s : State} (k : Kind) (h : s.busy = false) (hl : s.loaded = false) :
    issue k s = .refused .bufferNotLoaded := by simp [issue, h, hl]

/-- All that a command which answers a next state can have done. -/
theorem issue_cases {s t : State} {k : Kind} (h : issue k s = .next t) :
    (s.busy = true ∧ t = s) ∨ (s.busy = false ∧ s.loaded = true ∧ t = s.accept k) := by
  unfold issue at h
  split at h
  · rename_i hb; cases h; exact .inl ⟨hb, rfl⟩
  · rename_i hb
    split at h
    · rename_i hl; cases h; exact .inr ⟨by simpa using hb, hl, rfl⟩
    · cases h

/-- All that a refused command can mean. -/
theorem issue_refused_iff {s : State} {k : Kind} {r : Refusal} :
    issue k s = .refused r ↔ s.busy = false ∧ s.loaded = false ∧ r = .bufferNotLoaded := by
  unfold issue
  cases s.busy <;> cases s.loaded <;> simp [eq_comm]

theorem State.unit_lt (s : State) (k : Nat) : s.unit k < 2 ^ s.kindr.unitBits := by
  have h := unitValue_lt s.cfg.byteOrder s.kindr.unitBytes s.len s.buf k
  have e : 8 * s.kindr.unitBytes = s.kindr.unitBits := by cases s.kindr <;> rfl
  rwa [e] at h

/-- The sums of an update are canonical remainders (R76). -/
theorem fletcherUpdate_lt {m : Nat} (hm : 0 < m) (p : Nat × Nat) (u : Nat) :
    (fletcherUpdate m p u).1 < m ∧ (fletcherUpdate m p u).2 < m :=
  ⟨Nat.mod_lt _ hm, Nat.mod_lt _ hm⟩

/-- The OR of R74 is an addition, for sums that fit UB bits (R50, R75). -/
theorem checkWord_toNat (k : Kind) (a b : SumWord) (ha : a.toNat < 2 ^ k.unitBits) (hb : b.toNat < 2 ^ k.unitBits) :
    (checkWord k a b).toNat = b.toNat * 2 ^ k.unitBits + a.toNat := by
  have hlt : b.toNat * 2 ^ k.unitBits < 2 ^ 64 := by
    cases k <;> simp only [unitBits_f16, unitBits_f32, unitBits_f64] at * <;> omega
  have ha' : a.toNat < 2 ^ 64 := lt_of_lt_of_le a.isLt (by decide)
  have hb' : b.toNat < 2 ^ 64 := lt_of_lt_of_le b.isLt (by decide)
  simp only [checkWord, BitVec.toNat_or, BitVec.toNat_shiftLeft, BitVec.toNat_setWidth, Nat.mod_eq_of_lt ha',
    Nat.mod_eq_of_lt hb', Nat.shiftLeft_eq, Nat.mod_eq_of_lt hlt]
  rw [← Nat.shiftLeft_eq, ← Nat.shiftLeft_add_eq_or_of_lt ha]

end Sys2Proof.Machine
end

