-- ==== Sys2Proof/Laws/Engine.lean ====
section
/-! SUPPORT. What one turn of the engine can do. -/

namespace Sys2Proof.Machine.State

theorem engineStep_not_busy {s : State} (h : s.busy = false) : s.engineStep = s := by simp [engineStep, h]

theorem engineStep_unit {s : State} (h : s.busy = true) (hu : s.ucnt < s.unitCount) : s.engineStep = s.unitStep := by
  simp [engineStep, h, hu]

theorem engineStep_finalise {s : State} (h : s.busy = true) (hu : s.ucnt = s.unitCount) :
    s.engineStep = s.finalise := by
  simp [engineStep, h, hu]

theorem engineStep_beyond {s : State} (hu : s.unitCount < s.ucnt) : s.engineStep = s := by
  have h1 : ¬ s.ucnt < s.unitCount := by omega
  have h2 : ¬ s.ucnt = s.unitCount := by omega
  simp [engineStep, h1, h2]

/-- All that a turn of the engine can do. -/
theorem engineStep_cases (s : State) :
    (s.busy = true ∧ s.ucnt < s.unitCount ∧ s.engineStep = s.unitStep) ∨
    (s.busy = true ∧ s.ucnt = s.unitCount ∧ s.engineStep = s.finalise) ∨
    ((s.busy = false ∨ s.unitCount < s.ucnt) ∧ s.engineStep = s) := by
  cases hb : s.busy
  · exact .inr (.inr ⟨.inl rfl, engineStep_not_busy hb⟩)
  · rcases Nat.lt_trichotomy s.ucnt s.unitCount with h | h | h
    · exact .inl ⟨rfl, h, engineStep_unit hb h⟩
    · exact .inr (.inl ⟨rfl, h, engineStep_finalise hb h⟩)
    · exact .inr (.inr ⟨.inr h, engineStep_beyond h⟩)

@[simp] theorem engineSteps_zero (s : State) : engineSteps 0 s = s := rfl

theorem engineSteps_succ (k : Nat) (s : State) : engineSteps (k + 1) s = engineSteps k s.engineStep := rfl

theorem engineSteps_add (j k : Nat) (s : State) : engineSteps (j + k) s = engineSteps k (engineSteps j s) := by
  induction j generalizing s with
  | zero => simp
  | succ j ih => rw [Nat.succ_add, engineSteps_succ, engineSteps_succ, ih]

/-- The sums a unit step leaves, as numbers: they fit their registers. -/
theorem unitStep_sums (s : State) :
    (s.unitStep.sum1.toNat, s.unitStep.sum2.toNat) =
      fletcherUpdate s.kindr.modulus (s.sum1.toNat, s.sum2.toNat) (s.unit s.ucnt) := by
  have h := fletcherUpdate_lt s.kindr.modulus_pos (s.sum1.toNat, s.sum2.toNat) (s.unit s.ucnt)
  have hm := s.kindr.modulus_le
  ext <;> simp only [unitStep_sum1, unitStep_sum2, BitVec.toNat_ofNat] <;> omega

/-- Units are pure: a unit step changes none (R61). -/
@[simp] theorem unitStep_unit (s : State) (k : Nat) : s.unitStep.unit k = s.unit k := rfl

@[simp] theorem unitStep_unitCount (s : State) : s.unitStep.unitCount = s.unitCount := rfl

end Sys2Proof.Machine.State
end

