-- ==== Sys2Proof/Laws/Host.lean ====
section
/-! SUPPORT. What one host operation can do. -/

namespace Sys2Proof.Machine

/-- CMD on a word that is a command is that command (R46, R89). -/
theorem writeCtrl_command {w : Byte} {i : Instr} (s : State) (h : decode w = .command i) : writeCtrl w s = exec i s := by
  simp [writeCtrl, h]

/-- A STATUS read shows DONE in bit 1 (R20). -/
@[simp] theorem doneBit_statusWord (s : State) : doneBit s.statusWord = s.done := by
  cases h : s.done <;> cases h2 : s.busy <;> cases h3 : s.rkind <;> simp [doneBit, State.statusWord, h, h2, h3] <;> decide

/-- CMD is a write of CTRL (R54). -/
theorem hostOp_cmd (s : State) (w : Byte) : hostOp (.cmd w) s = writeCtrl w s := by
  simp [hostOp, HostOp.cmd, writeRegister]

theorem readResult_done {s : State} (h : s.done = true) : readResult s = s.reply (.result s.result) := by
  unfold readResult; rw [if_pos h]

theorem readResult_not_done {s : State} (h : s.done = false) : readResult s = s.replyFree := by
  unfold readResult; rw [if_neg (by simp [h])]

theorem pollDone_done {s : State} (h : s.done = true) : pollDone s = s.reply (.status s.statusWord) := by
  unfold pollDone; rw [if_pos (by simp [h])]

theorem pollDone_not_done {s : State} (h : s.done = false) :
    pollDone s = { s.reply (.status s.statusWord) with program := .wait :: s.program } := by
  unfold pollDone; rw [if_neg (by simp [h])]

/-- What a WBUF that answers a next state has done. -/
theorem writeBuffer_next {i : Nat} {b : Byte} {s t : State} (h : writeBuffer i b s = .next t) :
    i < s.cfg.bufMax ∧ t = if s.busy then s else s.storeByte i b := by
  unfold writeBuffer at h
  split at h
  · cases h; exact ⟨by assumption, rfl⟩
  · cases h

/-- All that a host operation which answers a next state can have done to the state. -/
theorem hostOp_cases {op : HostOp} {s t : State} (h : hostOp op s = .next t) :
    t = s ∨
    (∃ i b, op = .wbuf i b ∧ i < s.cfg.bufMax ∧ s.busy = false ∧ t = s.storeByte i b) ∨
    (∃ v, op = .writeReg 1 v ∧ s.busy = false ∧ t = s.setLen v) ∨
    (∃ v i, op = .writeReg 0 v ∧ decode (BitVec.ofNat 8 v) = .command i ∧ s.busy = false ∧ s.loaded = true ∧
      t = s.accept i.kind) ∨
    (∃ r, t = s.reply r) ∨
    (op = .readReg 3 ∧ s.done = false ∧ t = s.replyFree) ∨
    (op = .wait ∧ s.done = false ∧ t = { s.reply (.status s.statusWord) with program := .wait :: s.program }) := by
  match op with
  | .wbuf i b =>
    simp only [hostOp, writeBuffer] at h
    split at h
    · rename_i hi
      cases hb : s.busy <;> simp only [hb, if_true, Bool.false_eq_true, if_false] at h <;> cases h
      · exact .inr (.inl ⟨i, b, rfl, hi, rfl, rfl⟩)
      · exact .inl rfl
    · cases h
  | .writeReg 0 v =>
    simp only [hostOp, writeRegister, writeCtrl] at h
    split at h
    · rename_i i hd
      rw [exec_eq_issue] at h
      rcases issue_cases h with ⟨_, rfl⟩ | ⟨hb, hl, rfl⟩
      · exact .inl rfl
      · exact .inr (.inr (.inr (.inl ⟨v, i, rfl, hd, hb, hl, rfl⟩)))
    · split at h <;> cases h
      exact .inl rfl
  | .writeReg 1 v =>
    simp only [hostOp, writeRegister, writeLen] at h
    cases hb : s.busy <;> simp only [hb, if_true, Bool.false_eq_true, if_false] at h <;> cases h
    · exact .inr (.inr (.inl ⟨v, rfl, rfl, rfl⟩))
    · exact .inl rfl
  | .writeReg 2 v => cases h; exact .inl rfl
  | .writeReg 3 v => cases h; exact .inl rfl
  | .writeReg (n + 4) v => cases h
  | .readReg 0 => cases h; exact .inr (.inr (.inr (.inr (.inl ⟨_, rfl⟩))))
  | .readReg 1 => cases h; exact .inr (.inr (.inr (.inr (.inl ⟨_, rfl⟩))))
  | .readReg 2 => cases h; exact .inr (.inr (.inr (.inr (.inl ⟨_, rfl⟩))))
  | .readReg 3 =>
    simp only [hostOp, readRegister, readResult] at h
    cases hd : s.done <;> simp only [hd, if_true, Bool.false_eq_true, if_false] at h <;> cases h
    · exact .inr (.inr (.inr (.inr (.inr (.inl ⟨rfl, rfl, rfl⟩)))))
    · exact .inr (.inr (.inr (.inr (.inl ⟨_, rfl⟩))))
  | .readReg (n + 4) => cases h
  | .wait =>
    simp only [hostOp, pollDone, doneBit_statusWord] at h
    cases hd : s.done <;> simp only [hd, if_true, Bool.false_eq_true, if_false] at h <;> cases h
    · exact .inr (.inr (.inr (.inr (.inr (.inr ⟨rfl, rfl, rfl⟩)))))
    · exact .inr (.inr (.inr (.inr (.inl ⟨_, rfl⟩))))

end Sys2Proof.Machine
end

