-- ==== Sys2Proof/Laws/PerInstr.lean ====
section
/-! SUPPORT. Statements made per instruction. -/

namespace Sys2Proof.Laws.CommandWord

/-- The word of a command has field ZERO zero and its kind's code in KIND (R44, R45), and the command is well formed. -/
def Statement (i : Instr) : Prop :=
  i.wellFormed = true ∧ zeroField (encode i) = 0#6 ∧ kindField (encode i) = i.kind.code ∧ i.kind.command = i

theorem fletcher16 : Statement .fletcher16 := by unfold Statement; decide

theorem fletcher32 : Statement .fletcher32 := by unfold Statement; decide

theorem fletcher64 : Statement .fletcher64 := by unfold Statement; decide

end Sys2Proof.Laws.CommandWord
end

