-- ==== Sys2Proof/Laws/Step.lean ====
section
/-! SUPPORT. What one step can do, and runs of steps. -/

namespace Sys2Proof.Machine

theorem State.nextTurn_nil {s : State} (h : s.schedule = []) :
    s.nextTurn = if s.busy then Turn.engine else Turn.host := by simp [State.nextTurn, h]

theorem State.nextTurn_cons {s : State} {t : Turn} {ts : List Turn} (h : s.schedule = t :: ts) : s.nextTurn = t := by
  simp [State.nextTurn, h]

theorem step_host {s : State} {op : HostOp} {ops : List HostOp} (h : s.nextTurn = .host) (hp : s.program = op :: ops) :
    step s = hostOp op { s with program := ops, schedule := s.schedule.tail } := by
  simp [step, takeTurn, hostTurn, h, hp]

theorem step_host_nil {s : State} (h : s.nextTurn = .host) (hp : s.program = []) :
    step s = .next { s with schedule := s.schedule.tail } := by
  simp [step, takeTurn, hostTurn, h, hp]

theorem step_engine {s : State} (h : s.nextTurn = .engine) :
    step s = .next { s with schedule := s.schedule.tail }.engineStep := by
  simp [step, takeTurn, h]

theorem step_reset {s : State} (h : s.nextTurn = .reset) :
    step s = .next { s with schedule := s.schedule.tail }.resetBlock := by
  simp [step, takeTurn, h]

/-- All that a step which answers a next state can have done. -/
theorem step_cases {s t : State} (h : step s = .next t) :
    (s.nextTurn = .host ∧ s.program = [] ∧ t = { s with schedule := s.schedule.tail }) ∨
    (s.nextTurn = .host ∧ ∃ op ops, s.program = op :: ops ∧
      hostOp op { s with program := ops, schedule := s.schedule.tail } = .next t) ∨
    (s.nextTurn = .engine ∧ t = { s with schedule := s.schedule.tail }.engineStep) ∨
    (s.nextTurn = .reset ∧ t = { s with schedule := s.schedule.tail }.resetBlock) := by
  cases hn : s.nextTurn with
  | host =>
    cases hp : s.program with
    | nil => rw [step_host_nil hn hp] at h; cases h; exact .inl ⟨rfl, rfl, by simp [← hp]⟩
    | cons op ops => rw [step_host hn hp] at h; exact .inr (.inl ⟨rfl, op, ops, rfl, h⟩)
  | engine => rw [step_engine hn] at h; cases h; exact .inr (.inr (.inl ⟨rfl, rfl⟩))
  | reset => rw [step_reset hn] at h; cases h; exact .inr (.inr (.inr ⟨rfl, rfl⟩))

/-- A refused step is a refused host operation. -/
theorem step_refused_iff {s : State} {r : Refusal} :
    step s = .refused r ↔ s.nextTurn = .host ∧ ∃ op ops, s.program = op :: ops ∧
      hostOp op { s with program := ops, schedule := s.schedule.tail } = .refused r := by
  cases hn : s.nextTurn with
  | host =>
    cases hp : s.program with
    | nil => simp [step_host_nil hn hp]
    | cons op ops => simp [step_host hn hp]
  | engine => simp [step_engine hn]
  | reset => simp [step_reset hn]

@[simp] theorem run_zero (s : State) : run 0 s = .next s := rfl

theorem run_succ (k : Nat) (s : State) :
    run (k + 1) s = match step s with
      | .next t => run k t
      | .fault f => .fault f
      | .refused r => .refused r := rfl

theorem run_succ_next {s t : State} (k : Nat) (h : step s = .next t) : run (k + 1) s = run k t := by
  rw [run_succ, h]

theorem run_succ_refused {s : State} {r : Refusal} (k : Nat) (h : step s = .refused r) :
    run (k + 1) s = .refused r := by
  rw [run_succ, h]

theorem run_add {j k : Nat} {s t : State} (h : run j s = .next t) : run (j + k) s = run k t := by
  induction j generalizing s with
  | zero => cases h; simp
  | succ j ih =>
    rw [run_succ] at h
    rw [Nat.succ_add, run_succ]
    cases hs : step s with
    | next u => rw [hs] at h; exact ih h
    | fault f => cases f
    | refused r => rw [hs] at h; cases h

/-- A run that ends passes through a state after any number of its steps. -/
theorem run_split {j k : Nat} {s u : State} (h : run (j + k) s = .next u) :
    ∃ t, run j s = .next t ∧ run k t = .next u := by
  induction j generalizing s with
  | zero => exact ⟨s, rfl, by simpa using h⟩
  | succ j ih =>
    rw [Nat.succ_add, run_succ] at h
    cases hs : step s with
    | next t => rw [hs] at h; rw [run_succ_next j hs]; exact ih h
    | fault f => cases f
    | refused r => rw [hs] at h; cases h

theorem core_run_next {M : Host.Core} {s t : M.State} (k : Nat) (h : M.step s = .next t) :
    M.run (k + 1) s = M.run k t := by
  rw [Host.Core.run, h]

theorem core_run_refused {M : Host.Core} {s : M.State} {r : M.Refusal} (k : Nat) (h : M.step s = .refused r) :
    M.run (k + 1) s = .refused r := by
  rw [Host.Core.run, h]

/-- `run` is the interface's run of this machine. -/
theorem run_eq_core_run (k : Nat) (s : State) : run k s = Host.Core.run Sys2Proof.core k s := by
  induction k generalizing s with
  | zero => rfl
  | succ k ih =>
    cases h : step s with
    | next t => exact ((run_succ_next k h).trans (ih t)).trans (core_run_next (M := Sys2Proof.core) k h).symm
    | fault f => cases f
    | refused r => exact (run_succ_refused k h).trans (core_run_refused (M := Sys2Proof.core) k h).symm

/-- What every step keeps from a state that has it, every run keeps. -/
theorem run_induction {P : State → Prop} (hstep : ∀ s t, P s → step s = .next t → P t) {k : Nat} {s t : State}
    (hs : P s) (h : run k s = .next t) : P t := by
  induction k generalizing s with
  | zero => cases h; exact hs
  | succ k ih =>
    rw [run_succ] at h
    cases hst : step s with
    | next u => rw [hst] at h; exact ih (hstep s u hs hst) h
    | fault f => cases f
    | refused r => rw [hst] at h; cases h

end Sys2Proof.Machine
end

