-- ==== Sys2Proof/Tests/Slice0.lean ====
section
/-! SUPPORT. The model's own tests, and for each statement with hypotheses a state and operands that meet them. Expected
values are the spec's (95_test_vectors.md and the worked examples of the rules), except in the witnesses. -/

namespace Sys2Proof.Tests

open Sys2Proof.Machine

/-! ### Decoding: the words of 30_encoding.md R46, written out -/

theorem test_decode_fletcher16 : decode 0b00000000#8 = .command .fletcher16 := by decide
theorem test_decode_fletcher32 : decode 0b00000001#8 = .command .fletcher32 := by decide
theorem test_decode_fletcher64 : decode 0b00000010#8 = .command .fletcher64 := by decide
theorem test_decode_kind_reserved : decode 0b00000011#8 = .reserved .kindReserved := by decide
theorem test_decode_zero_field : decode 0b00000100#8 = .reserved .zeroFieldNotZero := by decide
theorem test_decodeTableWord : decodeTableWord 8 1 = some .fletcher32 ∧ decodeTableWord 8 0xFF = none := by decide

/-! ### WellFormed: each check refuses an ill-formed term -/

/-- A block of 7 buffer cells. -/
def config : Config := { byteOrder := .little, padRule := .align, tailRule := .drop, lenBits := 3 }

theorem test_wf_config : config.wellFormed = true ∧ ({ config with lenBits := 0 } : Config).wellFormed = false := by decide
theorem test_wf_wbuf : (HostOp.wbuf 6 0#8).wellFormed config = true ∧ (HostOp.wbuf 7 0#8).wellFormed config = false := by
  decide
theorem test_wf_ctrl :
    (HostOp.writeReg 0 255).wellFormed config = true ∧ (HostOp.writeReg 0 256).wellFormed config = false := by decide
theorem test_wf_len : (HostOp.wlen 7).wellFormed config = true ∧ (HostOp.wlen 8).wellFormed config = false := by decide
theorem test_wf_write : (HostOp.writeReg 3 9).wellFormed config = true ∧ (HostOp.writeReg 4 9).wellFormed config = false := by
  decide
theorem test_wf_read : (HostOp.readReg 3).wellFormed config = true ∧ (HostOp.readReg 4).wellFormed config = false := by
  decide
theorem test_wf_instr : ∀ i : Instr, i.wellFormed = true := by intro i; cases i <;> decide

/-! ### States of the tests: the buffer of a calculation, IDLE, RUN and DONE -/

/-- IDLE with `bytes` loaded from cell 0 on. -/
def idle (bytes : List Byte) : State :=
  { State.resetWith config with len := bytes.length, buf := (List.range bytes.length).zip bytes }

/-- RUN, just after the acceptance of a command of kind `k`. -/
def running (k : Kind) (bytes : List Byte) : State := (idle bytes).accept k

/-- DONE after FLETCHER16 of `[01, 02]` (95_test_vectors.md P1, line 7). -/
def finished : State :=
  { State.resetWith config with
    done := true, kindr := .f16, sum1 := 3#32, sum2 := 4#32, ucnt := 2, len := 2, result := 0x0403#64 }

def bytes12 : List Byte := [0x01#8, 0x02#8]
def abcde : List Byte := [0x61#8, 0x62#8, 0x63#8, 0x64#8, 0x65#8]

/-! ### One engine step of each command (95_test_vectors.md P1, P2, P3 and sections 3 and 5) -/

theorem test_fletcher16_second_unit :
    let t := ({ running .f16 bytes12 with sum1 := 1#32, sum2 := 1#32, ucnt := 1 } : State).engineStep
    t.sum1 = 3#32 ∧ t.sum2 = 4#32 ∧ t.ucnt = 2 ∧ t.busy = true := by decide
theorem test_fletcher16_result :
    let t := ({ running .f16 bytes12 with sum1 := 3#32, sum2 := 4#32, ucnt := 2 } : State).engineStep
    t.result = 0x0403#64 ∧ t.statusWord = 0x02#8 ∧ t.buf = [] := by decide
theorem test_fletcher32_padded_unit :
    let t := ({ running .f32 abcde with sum1 := 0xC6C4#32, sum2 := 0x2926#32, ucnt := 2 } : State).engineStep
    t.sum1 = 0xC729#32 ∧ t.sum2 = 0xF04F#32 := by decide
theorem test_fletcher32_result :
    let t := ({ running .f32 abcde with sum1 := 0xC729#32, sum2 := 0xF04F#32, ucnt := 3 } : State).engineStep
    t.result = 0xF04FC729#64 ∧ t.statusWord = 0x06#8 := by decide
theorem test_fletcher64_padded_unit_little_and_big :
    let s := { running .f64 abcde with sum1 := 0x64636261#32, sum2 := 0x64636261#32, ucnt := 1 }
    let b := { running .f64 abcde with
      cfg := { config with byteOrder := .big }, sum1 := 0x61626364#32, sum2 := 0x61626364#32, ucnt := 1 }
    s.engineStep.sum1 = 0x646362C6#32 ∧ s.engineStep.sum2 = 0xC8C6C527#32 ∧
    b.engineStep.sum1 = 0xC6626364#32 ∧ b.engineStep.sum2 = 0x27C4C6C9#32 := by decide
theorem test_fletcher64_result_drop :
    let t := ({ running .f64 abcde with
      cfg := { config with padRule := .literal }, sum1 := 0x64636261#32, sum2 := 0x64636261#32, ucnt := 1 } : State).engineStep
    t.result = 0x6463626164636261#64 ∧ t.statusWord = 0x0A#8 := by decide

/-! ### Host operations and refusals -/

theorem test_reset_runs_a_command : step (State.reset.withFetchWord 8 2) = .next (State.reset.accept .f64) := by rfl
theorem test_unloaded_buffer_is_refused :
    exec .fletcher16 { State.resetWith config with len := 1 } = .refused .bufferNotLoaded := by rfl
theorem test_reserved_word : hostOp (.cmd 0x03#8) (idle []) = .refused .reservedCommand ∧
    hostOp (.cmd 0x03#8) (running .f16 []) = .next (running .f16 []) := ⟨rfl, rfl⟩
theorem test_wbuf_last_cell : hostOp (.wbuf 6 0xAA#8) (idle []) = .next { idle [] with buf := [(6, 0xAA#8)] } ∧
    hostOp (.wbuf 7 0xAA#8) (idle []) = .refused .bufferIndexOutOfRange := ⟨rfl, rfl⟩
theorem test_no_such_register : hostOp (.readReg 4) (idle []) = .refused .noSuchRegister ∧
    hostOp (.writeReg 4 0) (idle []) = .refused .noSuchRegister := ⟨rfl, rfl⟩
theorem test_memory_write_sorted :
    Memory.write [(1, 0x0B#8), (5, 0x0C#8)] 3 0x0D#8 = [(1, 0x0B#8), (3, 0x0D#8), (5, 0x0C#8)] := by decide

/-! ### Witnesses: the hypotheses of each statement can be met -/

theorem inv_idle : (idle bytes12).Inv := by constructor <;> decide
theorem inv_running : (running .f16 bytes12).Inv := by constructor <;> decide
theorem inv_finished : finished.Inv := by constructor <;> decide

/-- The running calculation with `p` and `q` to come. -/
def runningWith (p : List HostOp) (q : List Turn) : State := { running .f16 bytes12 with program := p, schedule := q }

theorem inv_runningWith (p : List HostOp) (q : List Turn) : (runningWith p q).Inv :=
  have h := inv_running
  ⟨h.1, h.2, h.3, h.4, h.5, h.6, h.7, h.8, h.9, h.10, h.11, h.12⟩

theorem witness_EncodingAndDecodingAgree : ∃ w i, decode w = .command i := ⟨0x02#8, .fletcher64, by decide⟩

theorem witness_StepRunsTheDecodedCommand : ∃ (s : State) (i : Instr) (w : Byte) (ops : List HostOp),
    s.nextTurn = .host ∧ s.program = HostOp.cmd w :: ops ∧ decode w = .command i :=
  ⟨{ idle bytes12 with program := [.cmd 0x01#8] }, .fletcher32, 0x01#8, [], by decide⟩

theorem witness_PlacedCommandRunsAtTheNextStep : ∃ nbits w i, decodeTableWord nbits w = some i :=
  ⟨8, 2, .fletcher64, by decide⟩

/-- For CommandsAreAccepted, the three result statements and CommandsComputeTheSourceChecksum. -/
theorem witness_accepted : ∃ s : State, s.busy = false ∧ 0 < s.len ∧ ∀ i < s.len, s.valid i = true :=
  ⟨idle bytes12, by decide⟩

theorem witness_CommandWriteTriesItsCasesInOrder :
    (∃ s : State, s.busy = true) ∧
    (∃ w : Byte, w.extractLsb' 2 6 = 0#6 ∧ w.extractLsb' 0 2 = 0b11#2) ∧
    (∃ w : Byte, w.extractLsb' 2 6 ≠ 0#6 ∧ w.extractLsb' 0 2 = 0b00#2) ∧
    (∃ (s : State) (w : Byte), s.busy = false ∧ w.extractLsb' 2 6 = 0#6 ∧ w.extractLsb' 0 2 ≠ 0b11#2 ∧
      ∃ i < s.len, s.valid i = false) ∧
    (∃ (s : State) (w : Byte), s.busy = false ∧ w.extractLsb' 2 6 = 0#6 ∧ w.extractLsb' 0 2 ≠ 0b11#2 ∧
      ∀ i < s.len, s.valid i = true) ∧
    (∃ t, hostOp .rlen (running .f16 bytes12) = .next t) :=
  ⟨⟨running .f16 [], rfl⟩, ⟨0x03#8, by decide⟩, ⟨0x04#8, by decide⟩,
    ⟨{ State.resetWith config with len := 1 }, 0x00#8, by decide⟩, ⟨idle bytes12, 0x02#8, by decide⟩, ⟨_, rfl⟩⟩

theorem witness_CommandFrame : (∃ i s t, exec i s = .next t ∧ s.busy = false) ∧ ∃ i s t, exec i s = .next t ∧ s.busy = true :=
  ⟨⟨.fletcher16, idle bytes12, _, rfl, rfl⟩, ⟨.fletcher64, running .f16 bytes12, _, rfl, rfl⟩⟩

theorem witness_ResultDependsOnTheBufferAlone : ∃ s s' : State, s ≠ s' ∧ s.busy = false ∧ s'.busy = false ∧ s.cfg = s'.cfg ∧
    s.len = s'.len ∧ (∀ j < s.len, s.valid j = true) ∧ (∀ j < s.len, s.buf.read? j = s'.buf.read? j) :=
  ⟨idle bytes12, { idle bytes12 with buf := [(0, 0x01#8), (1, 0x02#8), (2, 0xFF#8)], sum1 := 7#32 }, by decide⟩

theorem witness_SumsHaveTheClosedForm : ∃ (s : State) (i : Instr) (k : Nat), s.busy = false ∧ (∀ j < s.len, s.valid j = true) ∧
    k ≤ nunits s.cfg s.len i.kind.unitBytes ∧ 0 < k := ⟨idle bytes12, .fletcher16, 2, by decide⟩

theorem witness_WriteBufferStoresOneCell :
    (∃ (s : State) (i : Nat), s.cfg.bufMax ≤ i) ∧ (∃ (s : State) (i : Nat), i < s.cfg.bufMax ∧ s.busy = true) ∧
    (∃ (s : State) (i : Nat), i < s.cfg.bufMax ∧ s.busy = false) ∧
    (∃ (s t t' : State) (i j : Nat) (b c : Byte), s.buf.wf ∧ i ≠ j ∧ hostOp (.wbuf i b) s = .next t ∧
      hostOp (.wbuf j c) s = .next t') :=
  ⟨⟨idle [], 7, by decide⟩, ⟨running .f16 [], 6, by decide⟩, ⟨idle [], 6, by decide⟩,
    ⟨idle bytes12, _, _, 0, 6, 0x09#8, 0x0A#8, by decide, by decide, rfl, rfl⟩⟩

theorem witness_WriteLenStoresTheLength :
    (∃ (s : State) (n : Nat), n ≤ s.cfg.bufMax ∧ s.busy = false) ∧ (∃ (s : State) (n : Nat), n ≤ s.cfg.bufMax ∧ s.busy = true) ∧
    ∃ (s t t' : State) (n i : Nat) (b : Byte), n ≤ s.cfg.bufMax ∧ hostOp (.wlen n) s = .next t ∧
      hostOp (.wbuf i b) s = .next t' :=
  ⟨⟨idle [], 7, by decide⟩, ⟨running .f16 [], 7, by decide⟩, ⟨idle bytes12, _, _, 7, 0, 0x09#8, by decide, rfl, rfl⟩⟩

theorem witness_StatusReadsItsFields : (idle bytes12).Inv ∧ (running .f16 bytes12).Inv ∧ finished.Inv ∧
    ∃ i s t, exec i s = .next t :=
  ⟨inv_idle, inv_running, inv_finished, .fletcher16, idle bytes12, _, rfl⟩

theorem witness_ResultReads : (∃ s : State, s.Inv ∧ s.done = true) ∧ ∃ s : State, s.done = false :=
  ⟨⟨finished, inv_finished, rfl⟩, ⟨State.reset, rfl⟩⟩

theorem witness_OtherRegisterAccesses : (3 < 4) ∧ (∃ (s t : State), hostOp .wait s = .next t) ∧
    ∃ (s t : State), hostOp (.readReg 3) s = .next t :=
  ⟨by decide, ⟨finished, _, rfl⟩, ⟨finished, _, rfl⟩⟩

theorem witness_HostCannotTouchARunningCalculation : ∃ op s t, s.busy = true ∧ hostOp op s = .next t :=
  ⟨.wbuf 0 0xFF#8, running .f16 bytes12, _, rfl, rfl⟩

theorem witness_RefusalsAreTheFourReasons :
    (∀ s ∈ [{ idle bytes12 with program := [.cmd 0x03#8] }, { idle bytes12 with program := [.wbuf 7 0#8] }],
      ∀ (v : Nat) (ops : List HostOp), s.program = .writeReg 0 v :: ops → v < 2 ^ 8) ∧
    step { idle bytes12 with program := [.cmd 0x03#8] } = .refused .reservedCommand ∧
    step { State.resetWith config with len := 1, program := [.cmd 0x02#8] } = .refused .bufferNotLoaded ∧
    step { idle bytes12 with program := [.wbuf 7 0#8] } = .refused .bufferIndexOutOfRange ∧
    step { idle bytes12 with program := [.readReg 4] } = .refused .noSuchRegister := by
  refine ⟨fun s hs v ops h => ?_, rfl, rfl, rfl, rfl⟩
  rcases List.mem_pair.1 hs with rfl | rfl <;> injection h with h
  · cases h; decide
  · cases h

/-- Busy over an unloaded buffer, loaded with bytes, and loaded because LEN = 0; and a step that goes on and one that is
refused. -/
theorem witness_StepsGoOnUnlessRefused :
    (∃ (s : State) (n : Nat) (m : Memory), s.busy = true ∧ 0 < n ∧ m.valid 0 = false) ∧
    (∃ (s : State) (n : Nat) (m : Memory), s.busy = false ∧ 0 < n ∧ ∀ j < n, m.valid j = true) ∧
    (∃ (s : State) (m : Memory), s.busy = false ∧ ∀ j < 0, m.valid j = true) ∧
    (∃ s t : State, step s = .next t) ∧ (∃ (s : State) (r : Refusal), step s = .refused r) :=
  ⟨⟨running .f16 [], 1, [], by decide⟩, ⟨idle [], 2, (idle bytes12).buf, by decide⟩, ⟨idle [], [], by decide⟩,
    ⟨idle [], _, rfl⟩, ⟨{ idle [] with program := [.cmd 0x03#8] }, _, rfl⟩⟩

theorem witness_UnitStepAddsOneUnit : (∃ s : State, s.Inv ∧ s.busy = true ∧ s.ucnt < s.unitCount ∧
    ∃ j < s.kindr.unitBytes, s.ucnt * s.kindr.unitBytes + j < s.len) ∧ ∃ s : State, ¬(s.busy = true ∧ s.ucnt < s.unitCount) :=
  ⟨⟨running .f16 bytes12, inv_running, by decide, by decide, 0, by decide, by decide⟩, ⟨idle [], by decide⟩⟩

theorem witness_FinalisationDeliversTheResult : (∃ s : State, s.busy = true ∧ s.ucnt = s.unitCount ∧ 0 < s.len) ∧
    ∃ s : State, ¬(s.busy = true ∧ s.ucnt = s.unitCount) :=
  ⟨⟨{ running .f16 bytes12 with ucnt := 2 }, by decide⟩, ⟨running .f16 bytes12, by decide⟩⟩

theorem witness_EngineIsDeterministicAndNeverStuck : (∃ s : State, s.nextTurn = .engine) ∧ (∃ s : State, s.busy = false) ∧
    ∃ s : State, s.Inv ∧ s.busy = true :=
  ⟨⟨running .f16 [], by decide⟩, ⟨idle [], rfl⟩, ⟨running .f16 bytes12, inv_running, rfl⟩⟩

theorem witness_EngineReadsEachByteOnceInOrder : (∃ s : State, s.busy = true ∧ s.ucnt < s.unitCount) ∧
    ∃ s : State, s.busy = false := ⟨⟨running .f32 abcde, by decide⟩, ⟨idle [], rfl⟩⟩

theorem witness_PaddingIsZeroAndTheTailIsNeverRead :
    (∃ (buf : Memory) (b : Byte), 1 < 2 ∧ buf.read? 1 = some b) ∧
    (∃ buf buf' : Memory, buf ≠ buf' ∧ ∀ i < 2, buf.read? i = buf'.read? i) ∧ config.padRule = .align :=
  ⟨⟨(idle bytes12).buf, 0x02#8, by decide⟩, ⟨[(2, 0x01#8)], [(2, 0x02#8)], by decide⟩, rfl⟩

theorem witness_UnitCountTable :
    config.padRule = .align ∧ (∃ c : Config, c.padRule = .literal ∧ c.tailRule = .drop ∧ 5 % 4 = 1) ∧
    (∃ c : Config, c.padRule = .literal ∧ c.tailRule = .keep ∧ nunits c 3 4 = ceilDiv 3 4 + 1) ∧
    ((0, 0) : Nat × Nat).1 < 1 :=
  ⟨rfl, ⟨{ config with padRule := .literal }, by decide⟩, ⟨{ config with padRule := .literal, tailRule := .keep }, by decide⟩,
    by decide⟩

theorem witness_ResetEvent : (∃ s : State, s.nextTurn = .reset ∧ s.busy = true) ∧ ∃ op s t, hostOp op s = .next t :=
  ⟨⟨runningWith [] [.reset], by decide⟩, ⟨.rlen, idle [], _, rfl⟩⟩

theorem witness_ResetSatisfiesTheInvariant : ∃ c : Config, 1 ≤ c.lenBits := ⟨{ config with lenBits := 1 }, by decide⟩

/-- For StepKeepsTheInvariant, SumsStayReduced, PhaseTransitions, UnitCounterNeverWraps, LenChangesOnlyByWlen,
BufferChangesOnlyByItsOwner and ConfigurationNeverChanges: a step of each agent. -/
theorem witness_steps :
    (∃ s t : State, s.Inv ∧ s.nextTurn = .host ∧ step s = .next t) ∧
    (∃ s t : State, s.Inv ∧ s.nextTurn = .engine ∧ step s = .next t) ∧
    (∃ s t : State, s.Inv ∧ s.nextTurn = .reset ∧ step s = .next t) :=
  ⟨⟨_, _, inv_runningWith [.rstatus] [.host], rfl, rfl⟩, ⟨_, _, inv_running, rfl, rfl⟩,
    ⟨_, _, inv_runningWith [] [.reset], rfl, rfl⟩⟩

theorem witness_LenChangesOnlyByWlen : ∃ s t : State, s.len ≤ s.cfg.bufMax ∧ step s = .next t ∧ t.len = 7 :=
  ⟨{ idle [] with program := [.wlen 7] }, _, by decide, rfl, rfl⟩

/-- For SumsStayReduced (each kind), ReductionIsOneConditionalSubtraction and ResultLayout. -/
theorem witness_sums : (∀ k : Kind, ∃ s : State, s.Inv ∧ s.kindr = k) ∧ ∃ s : State, s.Inv ∧ s.done = true := by
  refine ⟨fun k => ⟨running k bytes12, ?_, rfl⟩, finished, inv_finished, rfl⟩
  cases k <;> constructor <;> decide

theorem witness_ResultIsHeldUntilTheNextCommand : ∃ s t : State, s.Inv ∧ s.done = true ∧ step s = .next t :=
  ⟨finished, _, inv_finished, rfl, rfl⟩

theorem witness_TurnsAreTakenInOrder :
    (∃ (s : State) (x : Turn) (r : List Turn), s.schedule = x :: r) ∧ (∃ s : State, s.schedule = [] ∧ s.busy = true) ∧
    (∃ s : State, s.schedule = [] ∧ s.busy = false) ∧ (∃ s : State, s.nextTurn = .host ∧ s.program = []) ∧
    (∃ (s : State) (op : HostOp) (ops : List HostOp), s.nextTurn = .host ∧ s.program = op :: ops) :=
  ⟨⟨runningWith [] [.host], .host, [], rfl⟩, ⟨running .f16 [], by decide⟩, ⟨idle [], by decide⟩, ⟨idle [], by decide⟩,
    ⟨{ idle [] with program := [.rlen] }, .rlen, [], by decide⟩⟩

/-- 95_test_vectors.md P5, schedule A: a dropped write falls between two engine steps. -/
theorem witness_InterleavingDoesNotMatter :
    let turns : List Turn := [.engine, .host, .engine, .engine]
    let s := { idle bytes12 with program := [.wbuf 0 0xFF#8] }
    s.busy = false ∧ (∀ j < s.len, s.valid j = true) ∧ (∀ x ∈ turns, x ≠ .reset) ∧
    turns.count .engine = nunits s.cfg s.len Instr.fletcher16.kind.unitBytes + 1 ∧ turns.getLast? = some .engine ∧
    ∃ t u, exec .fletcher16 s = .next t ∧ run turns.length { t with schedule := turns ++ [] } = .next u := by
  refine ⟨by decide, by decide, by decide, by decide, by decide, _, _, rfl, rfl⟩

theorem witness_EveryCalculationEnds : ∃ s : State, s.Inv ∧ s.busy = true ∧ (∀ x ∈ s.schedule, x ≠ .reset) ∧
    (∀ op ∈ s.program, op.wellFormed s.cfg = true) :=
  ⟨runningWith [.wait] [.host, .host, .engine], inv_runningWith _ _, by decide⟩

theorem witness_HiddenRegistersDoNotLeak : ∃ (s u : State) (j : Nat), s.busy = false ∧ run j s = .next u ∧ u.done = true :=
  ⟨{ idle bytes12 with program := [.cmd 0x00#8] }, _, 4, rfl, rfl, rfl⟩

theorem witness_PartialSumsAreNotObservable : ∃ (s u : State) (j : Nat), 0 < j ∧
    (∀ l ≤ j, ∀ v, run l s = .next v → v.busy = true) ∧ run j s = .next u := by
  refine ⟨running .f16 bytes12, _, 1, by decide, fun l hl v h => ?_, rfl⟩
  match l with
  | 0 => cases h; rfl
  | 1 => cases h; rfl

theorem witness_CalcDeliversTheCheckValue : ∃ (s : State) (bytes : List Byte), s.Inv ∧ s.busy = false ∧
    (∀ x ∈ s.schedule, x ≠ .reset) ∧ bytes.length = s.cfg.bufMax :=
  ⟨finished, [1#8, 2#8, 3#8, 4#8, 5#8, 6#8, 7#8], inv_finished, by decide⟩

end Sys2Proof.Tests
end

