-- ==== Sys2Proof/Proofs/Status.lean ====
section
/-! PROOF. STATUS: its layout, its legal values by phase, and what a command keeps of it (10_state.md R20). -/

namespace Sys2Proof.Machine

/-- BUSY stands in bit 0 of STATUS (R20). -/
theorem statusWord_bit_busy (s : State) : s.statusWord.getLsbD 0 = s.busy := by
  unfold State.statusWord
  rw [BitVec.getLsbD_append]
  simp

/-- DONE stands in bit 1 of STATUS (R20): the bit WAIT polls. -/
theorem statusWord_bit_done (s : State) : s.statusWord.getLsbD 1 = s.done :=
  doneBit_statusWord s

/-- RKIND's code stands in bits 3:2 of STATUS (R20). -/
theorem statusWord_rkind_field (s : State) : s.statusWord.extractLsb' 2 2 = s.rkind.code := by
  unfold State.statusWord
  rw [BitVec.extractLsb'_append_eq_of_le (by decide), BitVec.extractLsb'_append_eq_of_le (by decide)]
  rw [BitVec.extractLsb'_append_eq_of_add_le (by decide)]
  exact BitVec.extractLsb'_eq_self

/-- Bits 7:4 of STATUS read as zero (R20). -/
theorem statusWord_reserved_field (s : State) : s.statusWord.extractLsb' 4 4 = 0#4 := by
  unfold State.statusWord
  rw [BitVec.extractLsb'_append_eq_of_le (by decide), BitVec.extractLsb'_append_eq_of_le (by decide)]
  exact BitVec.extractLsb'_append_eq_left

/-- With BUSY and DONE never both 1 (R18), STATUS reads as one of nine values, three for each phase (R20). -/
theorem statusWord_legal {s : State} (hflags : ¬(s.busy = true ∧ s.done = true)) :
    (s.busy = false ∧ s.done = false ∧ s.statusWord ∈ [0x00#8, 0x04#8, 0x08#8]) ∨
    (s.busy = true ∧ s.done = false ∧ s.statusWord ∈ [0x01#8, 0x05#8, 0x09#8]) ∨
    (s.busy = false ∧ s.done = true ∧ s.statusWord ∈ [0x02#8, 0x06#8, 0x0A#8]) := by
  unfold State.statusWord
  cases hb : s.busy <;> cases hd : s.done
  case false.false => exact .inl ⟨rfl, rfl, by cases s.rkind <;> decide⟩
  case true.false => exact .inr (.inl ⟨rfl, rfl, by cases s.rkind <;> decide⟩)
  case false.true => exact .inr (.inr ⟨rfl, rfl, by cases s.rkind <;> decide⟩)
  case true.true => exact absurd ⟨hb, hd⟩ hflags

/-- RSTATUS returns the value of STATUS, and its only effect is the reply (R36, R90). -/
theorem hostOp_rstatus (s : State) : hostOp .rstatus s = .next (s.reply (.status s.statusWord)) := rfl

/-- A host write to STATUS has no effect (R20). -/
theorem hostOp_writeReg_status (s : State) (v : Nat) : hostOp (.writeReg 2 v) s = .next s := rfl

/-- Dropped or accepted, a command leaves the tag of the previous result (R19, R89). -/
theorem exec_keeps_rkind {i : Instr} {s t : State} (h : exec i s = .next t) : t.rkind = s.rkind := by
  rw [exec_eq_issue] at h
  rcases issue_cases h with ⟨-, rfl⟩ | ⟨-, -, rfl⟩
  · rfl
  · exact State.accept_rkind s i.kind

/-- STATUS reads 0x00 after reset (R20, R27). -/
theorem statusWord_resetWith (c : Config) : (State.resetWith c).statusWord = 0x00#8 := by
  simp [State.statusWord, Kind.code]

/-- Settles O18: STATUS's fields one by one, its legal values from the invariant's flags alone, and the tag kept by
either outcome of a command. -/
theorem statusReadsItsFields : Obligations.StatusReadsItsFields := by
  unfold Obligations.StatusReadsItsFields
  refine ⟨fun s => ⟨s.statusWord, ?_⟩, hostOp_writeReg_status, fun i s t => exec_keeps_rkind, statusWord_resetWith⟩
  exact ⟨hostOp_rstatus s, statusWord_bit_busy s, statusWord_bit_done s, statusWord_rkind_field s,
    statusWord_reserved_field s, fun hinv => statusWord_legal hinv.flags⟩

end Sys2Proof.Machine
end

