-- ==== Sys2Proof/Proofs/Memory.lean ====
section
/-! PROOF. Word assembly as the sum of shifted bytes (20_memory.md R31), and padding: which positions the units of a
calculation reach and what they read there (20_memory.md R34). -/

namespace Sys2Proof

theorem Kind.unitBytes_pos (k : Kind) : 0 < k.unitBytes := by cases k <;> decide

theorem Kind.unitBytes_le (k : Kind) : k.unitBytes ≤ 4 := by cases k <;> decide

namespace Machine

/-- Under LITTLE byte `j` stands at bit `8·j` (R31). -/
theorem assemble_little_eq_sum (p : List Byte) :
    assemble .little p = ∑ j ∈ Finset.range p.length, (p.getD j 0#8).toNat <<< (8 * j) := by
  induction p with
  | nil => rfl
  | cons b bs ih =>
    have hshift (x j : Nat) : x <<< (8 * (j + 1)) = 2 ^ 8 * x <<< (8 * j) := by
      rw [Nat.shiftLeft_eq, Nat.shiftLeft_eq, Nat.mul_succ, Nat.pow_add]
      ring
    calc assemble .little (b :: bs) = b.toNat + 2 ^ 8 * assemble .little bs := rfl
      _ = ∑ j ∈ Finset.range (b :: bs).length, ((b :: bs).getD j 0#8).toNat <<< (8 * j) := by
        rw [ih, List.length_cons, Finset.sum_range_succ', Finset.mul_sum, Nat.add_comm]
        simp [hshift]

/-- BIG is LITTLE over the bytes in the opposite order (R31). -/
theorem assemble_big_eq_little_reverse (p : List Byte) : assemble .big p = assemble .little p.reverse := rfl

/-- Under BIG the last byte stands at bit 0, and byte `j` at bit `8·(WB-1-j)` (R31). -/
theorem assemble_big_eq_sum (p : List Byte) :
    assemble .big p = ∑ j ∈ Finset.range p.length, (p.getD j 0#8).toNat <<< (8 * (p.length - 1 - j)) := by
  rw [assemble_big_eq_little_reverse, assemble_little_eq_sum, List.length_reverse, ← Finset.sum_range_reflect]
  refine Finset.sum_congr rfl fun j hj => ?_
  have hj : j < p.length := Finset.mem_range.1 hj
  have hmirror : p.length - 1 - (p.length - 1 - j) = j := by omega
  rw [List.getD_reverse _ (by omega), hmirror]

/-- One byte assembles to itself under both orders (R31). -/
theorem assemble_singleton (o : ByteOrder) (b : Byte) : assemble o [b] = b.toNat := by
  cases o <;> simp [assemble, assembleLittle]

/-- Below LEN the packer reads the cell (R34). -/
theorem padRead_of_lt {len i : Nat} {buf : Memory} {b : Byte} (hi : i < len) (hb : buf.read? i = some b) :
    padRead len buf i = b := by
  simp [padRead, memRead, hi, hb]

/-- From LEN on the packer reads zero, whatever the buffer holds (R34). -/
theorem padRead_of_le {len i : Nat} (buf : Memory) (hi : len ≤ i) : padRead len buf i = 0x00#8 :=
  if_neg (Nat.not_lt.2 hi)

theorem ceilDiv_mul_le (a b : Nat) : ceilDiv a b * b ≤ a + b - 1 := Nat.div_mul_le_self _ _

theorem div_le_ceilDiv (a : Nat) {b : Nat} (hb : 0 < b) : a / b ≤ ceilDiv a b := Nat.div_le_div_right (by omega)

/-- ALIGN counts the words that cover LEN (R68). -/
theorem nunits_of_align {c : Config} (h : c.padRule = .align) (l wb : Nat) : nunits c l wb = ceilDiv l wb := by
  simp [nunits, h]

/-- In no configuration are there more units than words that cover the bytes and LITERAL's padding (R66 to R68). -/
theorem nunits_le_ceilDiv_padded (c : Config) (l : Nat) {wb : Nat} (hwb : 0 < wb) :
    nunits c l wb ≤ ceilDiv (l + l % wb) wb := by
  unfold nunits
  split
  · exact Nat.div_le_div_right (by omega)
  · exact div_le_ceilDiv _ hwb
  · exact Nat.le_refl _

/-- The words that cover the bytes and LITERAL's padding end at most 5 bytes past LEN. Only 32-bit words over a LEN with
residue 3 end there: the 3 bytes of padding spill into one more word, which ALIGN never forms (R68). -/
theorem ceilDiv_padded_mul_le (l : Nat) (k : Kind) :
    ceilDiv (l + l % k.unitBytes) k.unitBytes * k.unitBytes ≤ l + 5 := by
  cases k
  case f16 => simp [ceilDiv_one, Nat.mod_one]
  case f32 => simp only [ceilDiv, unitBytes_f32]; omega
  case f64 => simp only [ceilDiv, unitBytes_f64]; omega

/-- The largest position formed is at most LEN + 4 (R34). -/
theorem last_position_le (c : Config) (len : Nat) (k : Kind) : nunits c len k.unitBytes * k.unitBytes - 1 ≤ len + 4 := by
  have hcover := Nat.mul_le_mul_right k.unitBytes (nunits_le_ceilDiv_padded c len k.unitBytes_pos)
  have hend := ceilDiv_padded_mul_le len k
  omega

/-- Under ALIGN the largest position formed is at most LEN + 2 (R34). -/
theorem last_position_le_of_align {c : Config} (h : c.padRule = .align) (len : Nat) (k : Kind) :
    nunits c len k.unitBytes * k.unitBytes - 1 ≤ len + 2 := by
  rw [nunits_of_align h]
  have hcover := ceilDiv_mul_le len k.unitBytes
  have hwb := k.unitBytes_le
  omega

/-- Settles O28: the two sums by induction on the bytes and by reversal; the spec's four examples evaluate. -/
theorem wordAssembly : Obligations.WordAssembly :=
  ⟨fun p => ⟨assemble_little_eq_sum p, assemble_big_eq_sum p⟩, assemble_singleton, assemble_lt,
    by decide, by decide, by decide, by decide, rfl⟩

/-- Settles O29: the two sides of LEN, the units' independence of the tail, and the reach of the last unit. -/
theorem paddingIsZeroAndTheTailIsNeverRead : Obligations.PaddingIsZeroAndTheTailIsNeverRead :=
  ⟨fun _ buf _ => ⟨fun _ => padRead_of_lt, padRead_of_le buf⟩, fun _ _ _ => unitValue_congr,
    fun c k len => ⟨last_position_le c len k, fun h => last_position_le_of_align h len k⟩⟩

end Machine
end Sys2Proof
end

