-- ==== Sys2Proof/Proofs/Encoding.lean ====
section
/-! PROOF. The command word and its decoder, the constants of a kind, and the layout of the check value
(30_encoding.md R44 to R51). -/

namespace Sys2Proof

/-- The one code that names no kind (R45). -/
theorem kindOfCode?_eq_none_iff (b : BitVec 2) : kindOfCode? b = none ↔ b = 0b11#2 := by
  revert b
  decide

/-- The code of a kind names that kind back, and no other code does (R45). -/
theorem kindOfCode?_eq_some_iff (b : BitVec 2) (k : Kind) : kindOfCode? b = some k ↔ b = k.code := by
  revert b
  cases k <;> decide

/-- A command word is its field ZERO above its field KIND (R44). -/
theorem zeroField_append_kindField (w : Byte) : zeroField w ++ kindField w = w := by
  unfold zeroField kindField
  exact (BitVec.extractLsb'_append_extractLsb'_eq_extractLsb' rfl).trans BitVec.extractLsb'_eq_self

/-- What the command words have in common (R44, R45), for every command at once. -/
theorem commandWord_statement (i : Instr) : Laws.CommandWord.Statement i := by
  cases i
  case fletcher16 => exact Laws.CommandWord.fletcher16
  case fletcher32 => exact Laws.CommandWord.fletcher32
  case fletcher64 => exact Laws.CommandWord.fletcher64

@[simp] theorem zeroField_encode (i : Instr) : zeroField (encode i) = 0#6 := by
  obtain ⟨-, hzero, -, -⟩ := commandWord_statement i
  exact hzero

@[simp] theorem kindField_encode (i : Instr) : kindField (encode i) = i.kind.code := by
  obtain ⟨-, -, hkind, -⟩ := commandWord_statement i
  exact hkind

@[simp] theorem command_kind (i : Instr) : i.kind.command = i := by
  obtain ⟨-, -, -, hcommand⟩ := commandWord_statement i
  exact hcommand

/-- The fields of a word determine which command it encodes (R44, R45). -/
theorem eq_encode_iff (w : Byte) (i : Instr) : w = encode i ↔ zeroField w = 0#6 ∧ kindField w = i.kind.code := by
  constructor
  · rintro rfl
    exact ⟨zeroField_encode i, kindField_encode i⟩
  · rintro ⟨hzero, hkind⟩
    rw [← zeroField_append_kindField w, hzero, hkind, encode]

theorem decode_of_zeroField_ne {w : Byte} (h : zeroField w ≠ 0#6) : decode w = .reserved .zeroFieldNotZero :=
  if_pos h

theorem decode_of_kindReserved {w : Byte} (hz : zeroField w = 0#6) (hk : kindField w = 0b11#2) :
    decode w = .reserved .kindReserved := by
  simp [decode, hz, (kindOfCode?_eq_none_iff _).2 hk]

theorem decode_of_kind {w : Byte} {k : Kind} (hz : zeroField w = 0#6) (hk : kindField w = k.code) :
    decode w = .command k.command := by
  simp [decode, hz, (kindOfCode?_eq_some_iff _ k).2 hk]

/-- The decoder inverts the encoder (R46). -/
theorem decode_encode (i : Instr) : decode (encode i) = .command i := by
  rw [decode_of_kind (zeroField_encode i) (kindField_encode i), command_kind]

/-- All that a word can be (R46, R47): reserved by its field ZERO, reserved by its field KIND, or the word of a command. -/
theorem decode_cases (w : Byte) :
    (zeroField w ≠ 0#6 ∧ decode w = .reserved .zeroFieldNotZero) ∨
    (zeroField w = 0#6 ∧ kindField w = 0b11#2 ∧ decode w = .reserved .kindReserved) ∨
    ∃ i, w = encode i ∧ decode w = .command i := by
  by_cases hz : zeroField w = 0#6
  · cases hk : kindOfCode? (kindField w) with
    | none =>
      have hcode := (kindOfCode?_eq_none_iff _).1 hk
      exact .inr (.inl ⟨hz, hcode, decode_of_kindReserved hz hcode⟩)
    | some k =>
      have hcode := (kindOfCode?_eq_some_iff _ k).1 hk
      have hkind : k = k.command.kind := by cases k <;> rfl
      exact .inr (.inr ⟨k.command, (eq_encode_iff w _).2 ⟨hz, hkind ▸ hcode⟩, decode_of_kind hz hcode⟩)
  · exact .inl ⟨hz, decode_of_zeroField_ne hz⟩

/-- The reserved words by field (R47). -/
theorem decode_instr?_eq_none_iff (w : Byte) :
    (decode w).instr? = none ↔ kindField w = 0b11#2 ∨ zeroField w ≠ 0#6 := by
  rcases decode_cases w with ⟨hz, hd⟩ | ⟨hz, hk, hd⟩ | ⟨i, rfl, hd⟩
  · simp [hd, hz, Decoded.instr?]
  · simp [hd, hk, Decoded.instr?]
  · have hcode : i.kind.code ≠ 0b11#2 := by cases i <;> decide
    simp [hd, hcode, Decoded.instr?]

/-- The opcode map (R46): each command has one word and every other word has no command. -/
theorem decode_instr?_eq (w : Byte) :
    (decode w).instr? =
      if w = encode .fletcher16 then some .fletcher16
      else if w = encode .fletcher32 then some .fletcher32
      else if w = encode .fletcher64 then some .fletcher64
      else none := by
  split_ifs with h16 h32 h64
  · rw [h16, decode_encode, Decoded.instr?]
  · rw [h32, decode_encode, Decoded.instr?]
  · rw [h64, decode_encode, Decoded.instr?]
  · rcases decode_cases w with ⟨-, hd⟩ | ⟨-, -, hd⟩ | ⟨i, hw, -⟩
    · rw [hd, Decoded.instr?]
    · rw [hd, Decoded.instr?]
    · cases i <;> contradiction

/-- Settles O1: the opcode map by its three words, and the reserved words by their fields. -/
theorem opcodeMapIsComplete : Obligations.OpcodeMapIsComplete :=
  fun w => ⟨decode_instr?_eq w, decode_instr?_eq_none_iff w⟩

/-- A check value is two halves of one unit's width (R45). -/
theorem Kind.two_pow_checkBits (k : Kind) : 2 ^ k.checkBits = 2 ^ k.unitBits * 2 ^ k.unitBits := by
  cases k <;> rfl

/-- Settles O6: the table of constants evaluates; the shared code is the decoder's, STATUS's and the command word's. -/
theorem kindConstants : Obligations.KindConstants :=
  ⟨⟨rfl, rfl, rfl, rfl, rfl, rfl, rfl⟩, ⟨rfl, rfl, rfl, rfl, rfl, rfl, rfl⟩, ⟨rfl, rfl, rfl, rfl, rfl, rfl, rfl⟩,
    fun k => (kindOfCode?_eq_some_iff _ k).2 rfl, (kindOfCode?_eq_none_iff _).2 rfl,
    Machine.statusWord_rkind_field, fun i => ⟨kindField_encode i, command_kind i⟩⟩

namespace Machine

section checkWord
variable {k : Kind} {a b : SumWord}

/-- The low half of a check value is the first sum (R50). -/
theorem checkWord_mod (ha : a.toNat < 2 ^ k.unitBits) (hb : b.toNat < 2 ^ k.unitBits) :
    (checkWord k a b).toNat % 2 ^ k.unitBits = a.toNat := by
  rw [checkWord_toNat k a b ha hb, Nat.mul_add_mod_self_right, Nat.mod_eq_of_lt ha]

/-- The high half of a check value is the second sum (R50). -/
theorem checkWord_div (ha : a.toNat < 2 ^ k.unitBits) (hb : b.toNat < 2 ^ k.unitBits) :
    (checkWord k a b).toNat / 2 ^ k.unitBits = b.toNat := by
  rw [checkWord_toNat k a b ha hb, Nat.add_comm, Nat.add_mul_div_right _ _ (Nat.two_pow_pos _), Nat.div_eq_of_lt ha,
    Nat.zero_add]

/-- RESULT is zero above the C bits of a check value (R51): its high half fits one unit. -/
theorem checkWord_lt (ha : a.toNat < 2 ^ k.unitBits) (hb : b.toNat < 2 ^ k.unitBits) :
    (checkWord k a b).toNat < 2 ^ k.checkBits := by
  rw [Kind.two_pow_checkBits, ← Nat.div_lt_iff_lt_mul (Nat.two_pow_pos _), checkWord_div ha hb]
  exact hb

end checkWord

/-- The invariant's sums fit the width of a unit, so the halves of a check value do not overlap (R75). -/
theorem State.Inv.sums_lt {s : State} (h : s.Inv) :
    s.sum1.toNat < 2 ^ s.kindr.unitBits ∧ s.sum2.toNat < 2 ^ s.kindr.unitBits :=
  ⟨h.sum1_range.trans s.kindr.modulus_lt, h.sum2_range.trans s.kindr.modulus_lt⟩

/-- Settles O38: under DONE the invariant says that RESULT is the check word of the two sums, whose halves are disjoint. -/
theorem resultLayout : Obligations.ResultLayout := by
  unfold Obligations.ResultLayout
  intro s hinv hdone
  obtain ⟨hresult, hrkind⟩ := hinv.done_result hdone
  obtain ⟨h1, h2⟩ := hinv.sums_lt
  rw [hresult, hrkind]
  exact ⟨checkWord_mod h1 h2, checkWord_div h1 h2, checkWord_lt h1 h2⟩

end Machine
end Sys2Proof
end

