-- ==== Sys2Proof/Proofs/Packer.lean ====
section
/-! PROOF. The Word Packer: the units formed one by one from the buffer are the words of the source's padded and grouped
sequence (40_word_packer.md R61), and how many there are in each configuration (R68). -/

namespace Sys2Proof

namespace Machine

theorem nunits_of_literal_drop {c : Config} (hp : c.padRule = .literal) (ht : c.tailRule = .drop) (l wb : Nat) :
    nunits c l wb = (l + l % wb) / wb := by
  simp [nunits, hp, ht]

theorem nunits_of_literal_keep {c : Config} (hp : c.padRule = .literal) (ht : c.tailRule = .keep) (l wb : Nat) :
    nunits c l wb = ceilDiv (l + l % wb) wb := by
  simp [nunits, hp, ht]

/-- The three counts between which the configuration chooses (R68). -/
theorem nunits_cases (c : Config) (l wb : Nat) :
    nunits c l wb = ceilDiv l wb ∨ nunits c l wb = (l + l % wb) / wb ∨ nunits c l wb = ceilDiv (l + l % wb) wb := by
  cases hp : c.padRule with
  | align => exact .inl (nunits_of_align hp l wb)
  | literal =>
    cases ht : c.tailRule with
    | drop => exact .inr (.inl (nunits_of_literal_drop hp ht l wb))
    | keep => exact .inr (.inr (nunits_of_literal_keep hp ht l wb))

end Machine

namespace Reference

open Sys2Proof.Machine

/-- Zeros at the end of a sequence change no position, when a position past the end counts as zero. -/
theorem getD_append_zeros (bytes : List Byte) (n i : Nat) :
    (bytes ++ List.replicate n 0#8).getD i 0#8 = bytes.getD i 0#8 := by
  rcases Nat.lt_or_ge i bytes.length with hi | hi
  · exact List.getD_append _ _ _ _ hi
  · rw [List.getD_append_right _ _ _ _ hi, List.getD_eq_getElem?_getD, List.getElem?_getD_replicate_default_eq,
      List.getD_eq_default _ _ hi]

/-- A chunk is `wb` consecutive positions of the sequence, those past its end zero (R59, R67). -/
theorem chunk_eq_map_getD (p : List Byte) (wb k : Nat) :
    chunk p wb k = (unitAddresses wb k).map fun a => p.getD a 0#8 := by
  have hlength : (chunk p wb k).length = wb := by
    simp only [chunk, List.length_append, List.length_replicate, List.length_take]
    omega
  refine List.ext_getElem (by simp [hlength]) fun j hj _ => ?_
  have hjwb : j < wb := hlength ▸ hj
  calc (chunk p wb k)[j]
      = (((p.drop (k * wb)).take wb).getD j 0#8) := by
        rw [← List.getD_eq_getElem _ 0#8 hj]
        exact getD_append_zeros _ _ _
    _ = p.getD (k * wb + j) 0#8 := by
        simp [List.getD_eq_getElem?_getD, List.getElem?_take_of_lt hjwb]
    _ = ((unitAddresses wb k).map fun a => p.getD a 0#8)[j] := by simp [unitAddresses]

/-- The bytes below LEN, followed by zeros, are the padded reads (R34, R58). -/
theorem getD_padded_cells (r : PadRule) (len wb : Nat) (buf : Memory) (i : Nat) :
    (padded r ((List.range len).map (memRead buf)) wb).getD i 0#8 = padRead len buf i := by
  rw [padded, getD_append_zeros]
  rcases Nat.lt_or_ge i len with hi | hi
  · simp [List.getD_eq_getElem?_getD, padRead, hi]
  · rw [List.getD_eq_default _ _ (by simpa using hi), padRead_of_le buf hi]

theorem padCount_align (l wb : Nat) : padCount .align l wb = if l % wb = 0 then 0 else wb - l % wb := rfl

/-- Under ALIGN the padded sequence is exactly the words that cover the bytes (R57, R60). -/
theorem align_padded_div (l : Nat) (k : Kind) :
    (l + padCount .align l k.unitBytes) / k.unitBytes = ceilDiv l k.unitBytes := by
  rw [padCount_align]
  split <;> cases k <;> simp only [ceilDiv, unitBytes_f16, unitBytes_f32, unitBytes_f64] at * <;> omega

/-- The source's packer groups as many words as the hardware forms units (R60, R66 to R68). -/
theorem wordCount_eq_nunits (c : Config) (bytes : List Byte) (k : Kind) :
    wordCount c bytes k.unitBytes = nunits c bytes.length k.unitBytes := by
  have htotal (r : PadRule) : (padded r bytes k.unitBytes).length = bytes.length + padCount r bytes.length k.unitBytes := by
    simp [padded]
  cases hp : c.padRule with
  | align =>
    calc wordCount c bytes k.unitBytes
        = (padded .align bytes k.unitBytes).length / k.unitBytes := by simp [wordCount, hp]
      _ = nunits c bytes.length k.unitBytes := by rw [htotal, align_padded_div, nunits_of_align hp]
  | literal =>
    cases ht : c.tailRule with
    | drop => simp [wordCount, hp, ht, htotal, padCount, nunits_of_literal_drop hp ht]
    | keep => simp [wordCount, hp, ht, htotal, padCount, nunits_of_literal_keep hp ht]

/-- The source's words over the cells below LEN are the hardware's units (R61). -/
theorem pack_eq_unitValues (c : Config) (k : Kind) (len : Nat) (buf : Memory) :
    pack c ((List.range len).map (memRead buf)) k.unitBits =
      (List.range (nunits c len k.unitBytes)).map (unitValue c.byteOrder k.unitBytes len buf) := by
  have hcount : wordCount c ((List.range len).map (memRead buf)) k.unitBytes = nunits c len k.unitBytes := by
    simpa using wordCount_eq_nunits c ((List.range len).map (memRead buf)) k
  have hword (j : Nat) : assemble c.byteOrder
      (chunk (padded c.padRule ((List.range len).map (memRead buf)) k.unitBytes) k.unitBytes j) =
        unitValue c.byteOrder k.unitBytes len buf j := by
    simp only [chunk_eq_map_getD, getD_padded_cells, unitValue]
  rw [pack, ← Kind.unitBytes, hcount]
  exact List.map_congr_left fun j _ => hword j

end Reference

namespace Machine

/-- With one byte to a unit, a unit below LEN is its cell (R61, R62). -/
theorem unitValue_one_of_lt (o : ByteOrder) {len j : Nat} (buf : Memory) (hj : j < len) :
    unitValue o 1 len buf j = (memRead buf j).toNat := by
  rw [unitValue_one, padRead, if_pos hj]

/-- A unit is the assembly of the padded reads of its positions (R61). -/
theorem unitValue_eq_assemble_range (o : ByteOrder) (wb len : Nat) (buf : Memory) (j : Nat) :
    unitValue o wb len buf j = assemble o ((List.range wb).map fun i => padRead len buf (j * wb + i)) := by
  rw [unitValue, unitAddresses, List.map_map]
  rfl

/-- Every configuration forms one unit to a byte (R68). -/
theorem nunits_one (c : Config) (l : Nat) : nunits c l 1 = l := by
  rcases nunits_cases c l 1 with h | h | h <;> simp [h, ceilDiv_one, Nat.mod_one]

/-- The hardware's units are the units of the source's algorithm: its bytes for Fletcher-16, its packed words for the
others (R61, R70). -/
theorem unitValues_eq_units (c : Config) (k : Kind) (len : Nat) (buf : Memory) :
    (List.range (nunits c len k.unitBytes)).map (unitValue c.byteOrder k.unitBytes len buf) =
      Reference.units c k ((List.range len).map (memRead buf)) := by
  cases k with
  | f16 =>
    rw [unitBytes_f16, nunits_one, Reference.units, List.map_map]
    exact List.map_congr_left fun j hj => unitValue_one_of_lt _ buf (List.mem_range.1 hj)
  | f32 => exact (Reference.pack_eq_unitValues c .f32 len buf).symm
  | f64 => exact (Reference.pack_eq_unitValues c .f64 len buf).symm

/-- Settles O31: chunk by chunk, the source's padded sequence holds the padded reads of the unit's positions, and both
sides count the same number of words. -/
theorem unitsAreTheSourcesWords : Obligations.UnitsAreTheSourcesWords := by
  unfold Obligations.UnitsAreTheSourcesWords
  refine fun c k len buf => ⟨unitValues_eq_units c k len buf, fun j => ⟨unitValue_eq_assemble_range _ _ _ _ _, ?_⟩⟩
  rintro rfl hj
  exact unitValue_one_of_lt _ buf hj

/-- No configuration changes the number of 16-bit units: LITERAL's pad count is ALIGN's at width 2 (R68). -/
theorem nunits_two (c : Config) (l : Nat) : nunits c l 2 = l / 2 + if l % 2 = 0 then 0 else 1 := by
  have hcases := nunits_cases c l 2
  simp only [ceilDiv] at hcases
  split <;> omega

/-- ALIGN completes a partial 32-bit word (R57, R68). -/
theorem nunits_four_of_align {c : Config} (h : c.padRule = .align) (l : Nat) :
    nunits c l 4 = l / 4 + if l % 4 = 0 then 0 else 1 := by
  rw [nunits_of_align h, ceilDiv]
  split <;> omega

/-- Under DROP, LITERAL's zeros complete a partial word of 2 or 3 bytes, but not one of 1 byte (R66 to R68). -/
theorem nunits_four_of_literal_drop {c : Config} (hp : c.padRule = .literal) (ht : c.tailRule = .drop) (l : Nat) :
    nunits c l 4 = l / 4 + if l % 4 = 2 ∨ l % 4 = 3 then 1 else 0 := by
  rw [nunits_of_literal_drop hp ht]
  split <;> omega

/-- Under KEEP a partial word of 1 byte is kept, and one of 3 bytes, with 3 zeros, spills into a second word
(R66 to R68). -/
theorem nunits_four_of_literal_keep {c : Config} (hp : c.padRule = .literal) (ht : c.tailRule = .keep) (l : Nat) :
    nunits c l 4 = l / 4 + if l % 4 = 0 then 0 else if l % 4 = 3 then 2 else 1 := by
  rw [nunits_of_literal_keep hp ht, ceilDiv]
  split
  · omega
  · split <;> omega

/-- Under DROP the units of a LEN with residue 1 end before the last byte (R68). -/
theorem nunits_four_drops_last_byte {c : Config} (hp : c.padRule = .literal) (ht : c.tailRule = .drop) {l : Nat}
    (hl : l % 4 = 1) : nunits c l 4 * 4 = l - 1 := by
  rw [nunits_four_of_literal_drop hp ht, hl]
  simp
  omega

/-- No configuration forms more than one 32-bit unit beyond the words that cover the bytes, and only a residue of 3, where
the padding spills over, forms that one (R68). -/
theorem nunits_four_le (c : Config) (l : Nat) :
    nunits c l 4 ≤ ceilDiv l 4 + 1 ∧ (nunits c l 4 = ceilDiv l 4 + 1 → 3 ≤ l) := by
  have hpadded := nunits_le_ceilDiv_padded c l (wb := 4) (by decide)
  simp only [ceilDiv] at *
  omega

/-- A unit of 0 leaves a reduced SUM1 and adds it to SUM2 once more (R68, R73). -/
theorem fletcherUpdate_zero {m : Nat} {p : Nat × Nat} (hp : p.1 < m) :
    fletcherUpdate m p 0 = (p.1, (p.2 + p.1) % m) := by
  simp [fletcherUpdate, Nat.mod_eq_of_lt hp]

/-- Settles O30: the table's rows, one configuration at a time, and its bounds, from LITERAL's padded length. -/
theorem unitCountTable : Obligations.UnitCountTable := by
  unfold Obligations.UnitCountTable
  intro c l
  obtain ⟨hle, heq⟩ := nunits_four_le c l
  exact ⟨nunits_one c l, nunits_two c l, fun hp => nunits_four_of_align hp l,
    fun hp ht => nunits_four_of_literal_drop hp ht l, fun hp ht => nunits_four_of_literal_keep hp ht l,
    fun hp ht => nunits_four_drops_last_byte hp ht, hle, heq, fun k => ⟨nunits_le c l k, last_position_le c l k⟩,
    fun _ _ => fletcherUpdate_zero⟩

end Machine
end Sys2Proof
end

