-- ==== Sys2Proof/Proofs/Fletcher.lean ====
section
/-! PROOF. The Fletcher Engine: acceptance of a command, the sums after any number of its units, the state its calculation
ends in (41_fletcher_engine.md R72 to R79), and the bounds the sums keep (41_fletcher_engine.md R75). -/

namespace Sys2Proof.Machine

/-- An idle block with a loaded buffer accepts every command (R89 case 4). -/
theorem exec_accepts {s : State} (i : Instr) (hbusy : s.busy = false) (hloaded : ∀ j < s.len, s.valid j = true) :
    exec i s = .next (s.accept i.kind) := by
  rw [exec_eq_issue, issue_loaded _ hbusy ((State.loaded_iff s).2 hloaded)]

/-- Settles O7: the three commands share one acceptance. -/
theorem commandsAreAccepted : Obligations.CommandsAreAccepted :=
  fun _ hbusy hloaded => ⟨exec_accepts .fletcher16 hbusy hloaded, exec_accepts .fletcher32 hbusy hloaded,
    exec_accepts .fletcher64 hbusy hloaded⟩

/-! ### The calculation -/

namespace State

/-- The calculation running in `s` with its first `k` units consumed (R73). -/
def consumed (s : State) (k : Nat) : State :=
  { s with sum1 := BitVec.ofNat 32 (s.sumsAfter k).1, sum2 := BitVec.ofNat 32 (s.sumsAfter k).2, ucnt := k }

/-- The block after a calculation of kind `k` that started in `s` and ended with the sums `p` of its `n` units (R74, R94). -/
def delivered (s : State) (k : Kind) (n : Nat) (p : Nat × Nat) : State :=
  { s with
    kindr := k, sum1 := BitVec.ofNat 32 p.1, sum2 := BitVec.ofNat 32 p.2, ucnt := n, busy := false, done := true,
    rkind := k, result := BitVec.ofNat 64 ((p.2 <<< k.unitBits) ||| p.1), buf := [] }

/-- Acceptance starts a calculation with nothing consumed: both sums and UCNT are 0 (R72). -/
theorem accept_consumed_zero (s : State) (k : Kind) : (s.accept k).consumed 0 = s.accept k := rfl

theorem sumsAfter_lt (s : State) (k : Nat) :
    (s.sumsAfter k).1 < s.kindr.modulus ∧ (s.sumsAfter k).2 < s.kindr.modulus :=
  Reference.sums_lt s.kindr.modulus_pos _

/-- Consuming a unit is one update of the sums (R73). -/
theorem sumsAfter_succ (s : State) (k : Nat) :
    s.sumsAfter (k + 1) = fletcherUpdate s.kindr.modulus (s.sumsAfter k) (s.unit k) := by
  simp only [sumsAfter, List.range_succ, List.map_append, List.map_singleton, Reference.sums_snoc, fletcherUpdate]

/-- The sums of the units consumed fit their registers (R75). -/
theorem consumed_sums (s : State) (k : Nat) :
    ((s.consumed k).sum1.toNat, (s.consumed k).sum2.toNat) = s.sumsAfter k := by
  obtain ⟨h1, h2⟩ := s.sumsAfter_lt k
  have hm := s.kindr.modulus_le
  ext <;> simp only [consumed, BitVec.toNat_ofNat] <;> omega

/-- A unit step consumes the next unit. -/
theorem consumed_unitStep (s : State) (k : Nat) : (s.consumed k).unitStep = s.consumed (k + 1) := by
  have hupdate : fletcherUpdate s.kindr.modulus ((s.consumed k).sum1.toNat, (s.consumed k).sum2.toNat) (s.unit k) =
      s.sumsAfter (k + 1) := by
    rw [consumed_sums, sumsAfter_succ]
  rw [consumed.eq_def s (k + 1), ← hupdate]
  rfl

section calculation
variable {s : State} (hbusy : s.busy = true) (hstart : s.consumed 0 = s)
include hbusy hstart

/-- From its start on, `k` turns of the engine consume the first `k` units of a calculation (R93). -/
theorem engineSteps_eq_consumed {k : Nat} (hk : k ≤ s.unitCount) : engineSteps k s = s.consumed k := by
  induction k with
  | zero => exact hstart.symm
  | succ k ih =>
    calc engineSteps (k + 1) s
        = (engineSteps k s).engineStep := engineSteps_add k 1 s
      _ = (s.consumed k).engineStep := by rw [ih (Nat.le_of_succ_le hk)]
      _ = s.consumed (k + 1) := by rw [engineStep_unit (s := s.consumed k) hbusy hk, consumed_unitStep]

/-- One turn of the engine after its last unit a calculation is finalised (R94). -/
theorem engineSteps_eq_finalise : engineSteps (s.unitCount + 1) s = (s.consumed s.unitCount).finalise := by
  rw [engineSteps_add, engineSteps_eq_consumed hbusy hstart (Nat.le_refl _)]
  exact engineStep_finalise hbusy rfl

end calculation

end State

/-- The check value's word holds its number, for sums that fit their registers (R74). -/
theorem checkWord_ofNat (k : Kind) {a b : Nat} (ha : a < 2 ^ 32) (hb : b < 2 ^ 32) :
    checkWord k (BitVec.ofNat 32 a) (BitVec.ofNat 32 b) = BitVec.ofNat 64 ((b <<< k.unitBits) ||| a) := by
  rw [checkWord, BitVec.setWidth_ofNat_of_le_of_lt (by decide) ha, BitVec.setWidth_ofNat_of_le_of_lt (by decide) hb,
    BitVec.ofNat_or]
  congr 1
  apply BitVec.eq_of_toNat_eq
  simp [Nat.shiftLeft_eq]

/-- Two reduced sums make a number of the check value's width (R74). -/
theorem checkValue_lt {k : Kind} {p : Nat × Nat} (h1 : p.1 < k.modulus) (h2 : p.2 < k.modulus) :
    (p.2 <<< k.unitBits) ||| p.1 < 2 ^ k.checkBits := by
  have hbits : k.checkBits = k.unitBits + k.unitBits := by cases k <;> rfl
  rw [hbits]
  have hlow : p.1 < 2 ^ (k.unitBits + k.unitBits) :=
    h1.trans (k.modulus_lt.trans_le (Nat.pow_le_pow_right (by decide) (Nat.le_add_right _ _)))
  exact Nat.or_lt_two_pow (Nat.shiftLeft_lt (h2.trans k.modulus_lt)) hlow

/-- Finalising a calculation of `n` units delivers their sums (R94). -/
theorem State.finalise_consumed (s : State) (k : Kind) (n : Nat) :
    ((s.accept k).consumed n).finalise = s.delivered k n ((s.accept k).sumsAfter n) := by
  obtain ⟨h1, h2⟩ := (s.accept k).sumsAfter_lt n
  have hm := (s.accept k).kindr.modulus_le
  rw [delivered, ← checkWord_ofNat k (by omega) (by omega)]
  rfl

/-- Every command over a loaded buffer is accepted and delivers the check value of its units, one engine turn after the
last of them (R72 to R74, R93, R94). -/
theorem command_delivers {s : State} (i : Instr) {n : Nat} {unit : Nat → Nat} (hbusy : s.busy = false)
    (hloaded : ∀ j < s.len, s.valid j = true) (hn : nunits s.cfg s.len i.kind.unitBytes = n)
    (hunit : ∀ j < n, unitValue s.cfg.byteOrder i.kind.unitBytes s.len s.buf j = unit j) :
    ∃ t : State, exec i s = .next t ∧ t.busy = true ∧ t.done = false ∧
      (let p := Reference.sums i.kind.modulus ((List.range n).map unit)
       t.engineSteps (n + 1) = s.delivered i.kind n p ∧
       (p.2 <<< i.kind.unitBits) ||| p.1 < 2 ^ i.kind.checkBits ∧
       (s.len = 0 → (p.2 <<< i.kind.unitBits) ||| p.1 = 0)) := by
  have hcount : (s.accept i.kind).unitCount = n := hn
  have hsums : (s.accept i.kind).sumsAfter n = Reference.sums i.kind.modulus ((List.range n).map unit) :=
    congrArg (Reference.sums i.kind.modulus) (List.map_congr_left fun j hj => hunit j (List.mem_range.1 hj))
  refine ⟨s.accept i.kind, exec_accepts i hbusy hloaded, rfl, rfl, ?_, ?_, fun hempty => ?_⟩
  · rw [← hsums, ← s.finalise_consumed, ← hcount]
    exact State.engineSteps_eq_finalise rfl (s.accept_consumed_zero i.kind)
  · obtain ⟨h1, h2⟩ := Reference.sums_lt i.kind.modulus_pos ((List.range n).map unit)
    exact checkValue_lt h1 h2
  · have hzero : n = 0 := by
      have hle := nunits_le s.cfg s.len i.kind
      omega
    simp [hzero]

/-! ### The units of each kind, byte by byte -/

section units
variable (len : Nat) (buf : Memory) (k : Nat)

/-- A 16-bit unit is the word of its two bytes (R61). -/
theorem unitValue_two (o : ByteOrder) : unitValue o 2 len buf k =
    assemble o [padRead len buf (2 * k), padRead len buf (2 * k + 1)] := by
  rw [unitValue_eq_assemble_range, Nat.mul_comm k 2]
  rfl

/-- A 32-bit unit is the word of its four bytes (R61). -/
theorem unitValue_four (o : ByteOrder) : unitValue o 4 len buf k =
    assemble o [padRead len buf (4 * k), padRead len buf (4 * k + 1), padRead len buf (4 * k + 2),
      padRead len buf (4 * k + 3)] := by
  rw [unitValue_eq_assemble_range, Nat.mul_comm k 4]
  rfl

end units

section words
variable (a b c d : Byte)

theorem assemble_little_two : assemble .little [a, b] = a.toNat + b.toNat * 2 ^ 8 := by
  simp only [assemble, assembleLittle]
  omega

theorem assemble_little_four : assemble .little [a, b, c, d] =
    a.toNat + b.toNat * 2 ^ 8 + c.toNat * 2 ^ 16 + d.toNat * 2 ^ 24 := by
  simp only [assemble, assembleLittle]
  omega

/-- BIG reads the two bytes as LITTLE reads them in the opposite order (R31). -/
theorem assemble_big_two : assemble .big [a, b] = a.toNat * 2 ^ 8 + b.toNat :=
  (assemble_little_two b a).trans (Nat.add_comm _ _)

/-- BIG reads the four bytes as LITTLE reads them in the opposite order (R31). -/
theorem assemble_big_four : assemble .big [a, b, c, d] =
    a.toNat * 2 ^ 24 + b.toNat * 2 ^ 16 + c.toNat * 2 ^ 8 + d.toNat := by
  have hreversed : assemble .big [a, b, c, d] = assemble .little [d, c, b, a] := rfl
  rw [hreversed, assemble_little_four]
  omega

end words

/-- Settles O10: the units of Fletcher-16 are the cells, in every configuration. -/
theorem fletcher16Result : Obligations.Fletcher16Result :=
  fun s hbusy hloaded => command_delivers .fletcher16 hbusy hloaded (nunits_one s.cfg s.len)
    fun _ hj => unitValue_one_of_lt s.cfg.byteOrder s.buf hj

/-- No configuration forms other 16-bit units than the words that cover the bytes (R68). -/
theorem nunits_two_eq (c : Config) (l : Nat) : nunits c l 2 = (l + 1) / 2 := by
  rw [nunits_two]
  split <;> omega

/-- Settles O11: both byte orders of the 16-bit units, whose number no configuration changes. -/
theorem fletcher32Result : Obligations.Fletcher32Result := by
  unfold Obligations.Fletcher32Result
  intro s hbusy hloaded
  refine command_delivers .fletcher32 hbusy hloaded (nunits_two_eq s.cfg s.len) fun j _ => ?_
  rw [Instr.kind, unitBytes_f32, unitValue_two]
  cases s.cfg.byteOrder with
  | little => exact assemble_little_two _ _
  | big => exact assemble_big_two _ _

/-- Settles O12: both byte orders of the 32-bit units, and their number under each pad and tail rule. -/
theorem fletcher64Result : Obligations.Fletcher64Result := by
  unfold Obligations.Fletcher64Result
  intro s hbusy hloaded
  refine command_delivers .fletcher64 hbusy hloaded ?_ fun j _ => ?_
  · cases hp : s.cfg.padRule with
    | align => exact nunits_of_align hp s.len 4
    | literal =>
      cases ht : s.cfg.tailRule with
      | drop => exact nunits_of_literal_drop hp ht s.len 4
      | keep => exact nunits_of_literal_keep hp ht s.len 4
  · rw [Instr.kind, unitBytes_f64, unitValue_four]
    cases s.cfg.byteOrder with
    | little => exact assemble_little_four _ _ _ _
    | big => exact assemble_big_four _ _ _ _

/-! ### The bounds of the sums -/

/-- The bounds of R75, in every phase. -/
def State.SumsReduced (s : State) : Prop := s.sum1.toNat < s.kindr.modulus ∧ s.sum2.toNat < s.kindr.modulus

theorem State.Inv.sumsReduced {s : State} (h : s.Inv) : s.SumsReduced := ⟨h.sum1_range, h.sum2_range⟩

/-- Sums set to 0 are reduced (R72). -/
theorem State.sumsReduced_of_zero {s : State} (h1 : s.sum1 = 0#32) (h2 : s.sum2 = 0#32) : s.SumsReduced := by
  simp [SumsReduced, h1, h2, s.kindr.modulus_pos]

/-- A unit step leaves remainders, whatever it finds (R73). -/
theorem State.unitStep_sumsReduced (s : State) : s.unitStep.SumsReduced := by
  have h := fletcherUpdate_lt s.kindr.modulus_pos (s.sum1.toNat, s.sum2.toNat) (s.unit s.ucnt)
  rwa [← s.unitStep_sums] at h

/-- Of the engine's steps only a unit step writes the sums (R93 to R95). -/
theorem State.engineStep_keeps_sumsReduced {s : State} (h : s.SumsReduced) : s.engineStep.SumsReduced := by
  rcases s.engineStep_cases with ⟨-, -, he⟩ | ⟨-, -, he⟩ | ⟨-, he⟩ <;> rw [he]
  · exact s.unitStep_sumsReduced
  · exact h
  · exact h

/-- Of the host's operations only an acceptance writes the sums, and it sets both to 0 (R72, R89). -/
theorem State.hostOp_keeps_sumsReduced {op : HostOp} {s t : State} (h : s.SumsReduced) (hop : hostOp op s = .next t) :
    t.SumsReduced := by
  rcases hostOp_cases hop with rfl | ⟨_, _, -, -, -, rfl⟩ | ⟨_, -, -, rfl⟩ | ⟨_, _, -, -, -, -, rfl⟩ | ⟨_, rfl⟩ |
    ⟨-, -, rfl⟩ | ⟨-, -, rfl⟩
  case inr.inr.inr.inl => exact State.sumsReduced_of_zero rfl rfl
  all_goals exact h

/-- Every step of every agent keeps the sums reduced (R75). -/
theorem State.step_keeps_sumsReduced {s t : State} (h : s.SumsReduced) (hstep : step s = .next t) : t.SumsReduced := by
  rcases step_cases hstep with ⟨-, -, rfl⟩ | ⟨-, op, ops, -, hop⟩ | ⟨-, rfl⟩ | ⟨-, rfl⟩
  · exact h
  · exact State.hostOp_keeps_sumsReduced (s := { s with program := ops, schedule := s.schedule.tail }) h hop
  · exact State.engineStep_keeps_sumsReduced (s := { s with schedule := s.schedule.tail }) h
  · exact State.sumsReduced_of_zero rfl rfl

theorem State.SumsReduced.le {s : State} (h : s.SumsReduced) :
    s.sum1.toNat ≤ s.kindr.modulus - 1 ∧ s.sum2.toNat ≤ s.kindr.modulus - 1 :=
  ⟨Nat.le_sub_one_of_lt h.1, Nat.le_sub_one_of_lt h.2⟩

/-- The largest check value has `M − 1` in both halves (R75). -/
theorem State.SumsReduced.checkWord_le {s : State} (h : s.SumsReduced) :
    (checkWord s.kindr s.sum1 s.sum2).toNat ≤ (s.kindr.modulus - 1) * 2 ^ s.kindr.unitBits + (s.kindr.modulus - 1) := by
  obtain ⟨h1, h2⟩ := h.le
  rw [checkWord_toNat _ _ _ (h.1.trans s.kindr.modulus_lt) (h.2.trans s.kindr.modulus_lt)]
  exact Nat.add_le_add (Nat.mul_le_mul_right _ h2) h1

/-- Settles O36: the bounds come from the invariant, the three largest values are those of the two largest sums, and every
step keeps the bounds. -/
theorem sumsStayReduced : Obligations.SumsStayReduced := by
  unfold Obligations.SumsStayReduced
  intro s hinv
  have hred := hinv.sumsReduced
  obtain ⟨hle1, hle2⟩ := hred.le
  obtain ⟨hlt1, hlt2⟩ := hinv.sums_lt
  have hmax := hred.checkWord_le
  refine ⟨hle1, hle2, hinv.sum1_range, hinv.sum2_range, checkWord_toNat _ _ _ hlt1 hlt2, fun hk => ?_, fun hk => ?_,
    fun hk => ?_, fun t hstep => (State.step_keeps_sumsReduced hred hstep).le⟩
  all_goals simpa [hk] using hmax

end Sys2Proof.Machine
end

