-- ==== Sys2Proof/Proofs/Operation.lean ====
section
/-! PROOF. The host's operations and the engine's steps, one by one, and the phases they move the block through
(42_operation_sequence.md R86 to R95). -/

namespace Sys2Proof

/-- A word with a non-zero field ZERO or KIND 0b11 is reserved (R47). -/
theorem decode_reserved {w : Byte} (h : zeroField w ≠ 0#6 ∨ kindField w = 0b11#2) : ∃ why, decode w = .reserved why := by
  rcases decode_cases w with ⟨-, hd⟩ | ⟨-, -, hd⟩ | ⟨i, rfl, -⟩
  · exact ⟨_, hd⟩
  · exact ⟨_, hd⟩
  · have hcode : i.kind.code ≠ 0b11#2 := by cases i <;> decide
    simp [hcode] at h

/-- Every other word is the command of the kind in its field KIND (R45, R46). -/
theorem decode_command {w : Byte} (hz : zeroField w = 0#6) (hk : kindField w ≠ 0b11#2) :
    ∃ i : Instr, i.kind.code = kindField w ∧ decode w = .command i := by
  rcases decode_cases w with ⟨hz', -⟩ | ⟨-, hk', -⟩ | ⟨i, rfl, hd⟩
  · exact absurd hz hz'
  · exact absurd hk' hk
  · exact ⟨i, (kindField_encode i).symm, hd⟩

namespace Machine

/-! ### CMD (R89) -/

theorem hostOp_cmd_command {w : Byte} {i : Instr} (s : State) (hd : decode w = .command i) :
    hostOp (.cmd w) s = exec i s := by
  rw [hostOp_cmd, writeCtrl_command s hd]

theorem hostOp_cmd_reserved {w : Byte} {why : ReservedReason} (s : State) (hd : decode w = .reserved why) :
    hostOp (.cmd w) s = if s.busy then .next s else .refused .reservedCommand := by
  rw [hostOp_cmd, writeCtrl, hd]

/-- Case 1: a running calculation drops every word. -/
theorem hostOp_cmd_busy {s : State} (w : Byte) (hbusy : s.busy = true) : hostOp (.cmd w) s = .next s := by
  cases hd : decode w with
  | command i => rw [hostOp_cmd_command s hd, exec_eq_issue, issue_busy _ hbusy]
  | reserved why => rw [hostOp_cmd_reserved s hd, if_pos hbusy]

/-- Case 3: an idle block refuses every command over a buffer with a cell missing. -/
theorem exec_refuses {s : State} (i : Instr) (hbusy : s.busy = false) (hmissing : ∃ j < s.len, s.valid j = false) :
    exec i s = .refused .bufferNotLoaded := by
  rw [exec_eq_issue, issue_not_loaded _ hbusy ((State.loaded_eq_false_iff s).2 hmissing)]

/-- The empty buffer is never found unloaded. -/
theorem hostOp_cmd_empty {s : State} (w : Byte) (hlen : s.len = 0) : hostOp (.cmd w) s ≠ .refused .bufferNotLoaded := by
  cases hd : decode w with
  | command i =>
    have hloaded : s.loaded = true := (State.loaded_iff s).2 (by simp [hlen])
    simp [hostOp_cmd_command s hd, exec_eq_issue, issue_refused_iff, hloaded]
  | reserved why =>
    rw [hostOp_cmd_reserved s hd]
    split <;> simp

/-- While a calculation runs, the host reaches nothing but the model's own record of it (R16, R115). -/
theorem hostOp_busy_frame {op : HostOp} {s t : State} (hbusy : s.busy = true) (hop : hostOp op s = .next t) :
    t = { s with program := t.program, replies := t.replies, draws := t.draws } := by
  rcases hostOp_cases hop with rfl | ⟨_, _, -, -, hidle, -⟩ | ⟨_, -, hidle, -⟩ | ⟨_, _, -, -, hidle, -, -⟩ | ⟨_, rfl⟩ |
    ⟨-, -, rfl⟩ | ⟨-, -, rfl⟩
  case inr.inl | inr.inr.inl | inr.inr.inr.inl => simp [hbusy] at hidle
  all_goals rfl

/-- While a calculation runs, the host changes neither LEN nor BUF (R115). -/
theorem hostOp_busy_keeps_operands {op : HostOp} {s t : State} (hbusy : s.busy = true) (hop : hostOp op s = .next t) :
    t.len = s.len ∧ t.buf = s.buf := by
  rw [hostOp_busy_frame hbusy hop]
  exact ⟨rfl, rfl⟩

/-- RRESULT returns the result under DONE = 1 (R91). -/
theorem hostOp_rresult_done {s : State} (hdone : s.done = true) :
    hostOp .rresult s = .next (s.reply (.result s.result)) :=
  congrArg Host.Outcome.next (readResult_done hdone)

/-- RRESULT returns a free value under DONE = 0 (R91). -/
theorem hostOp_rresult_not_done {s : State} (hdone : s.done = false) : hostOp .rresult s = .next s.replyFree :=
  congrArg Host.Outcome.next (readResult_not_done hdone)

/-- Settles O8: the word's fields say whether it is a command, and `exec` settles the rest; after the acceptance the
block is busy, which keeps the host away from LEN and BUF. -/
theorem commandWriteTriesItsCasesInOrder : Obligations.CommandWriteTriesItsCasesInOrder := by
  unfold Obligations.CommandWriteTriesItsCasesInOrder
  refine fun s w => ⟨hostOp_cmd_busy w, fun hbusy hword => ?_, fun hbusy hz hk hmissing => ?_,
    fun hbusy hz hk hloaded => ?_, hostOp_cmd_empty w⟩
  · obtain ⟨why, hd⟩ := decode_reserved hword
    rw [hostOp_cmd_reserved s hd, if_neg (by simp [hbusy])]
  · obtain ⟨i, -, hd⟩ := decode_command hz hk
    rw [hostOp_cmd_command s hd, exec_refuses i hbusy hmissing]
  · obtain ⟨i, hcode, hd⟩ := decode_command hz hk
    refine ⟨i.kind, s.accept i.kind, hcode, (hostOp_cmd_command s hd).trans (exec_accepts i hbusy hloaded), rfl,
      hostOp_rresult_not_done rfl, fun op u hop => ?_⟩
    obtain ⟨hlen, hbuf⟩ := hostOp_busy_keeps_operands (s.accept_busy i.kind) hop
    exact ⟨hlen, fun a => by rw [hbuf, s.accept_buf]⟩

/-! ### WBUF and WLEN (R87, R88) -/

theorem hostOp_wbuf_out_of_range {s : State} {i : Nat} (b : Byte) (hi : s.cfg.bufMax ≤ i) :
    hostOp (.wbuf i b) s = .refused .bufferIndexOutOfRange :=
  if_neg (Nat.not_lt.2 hi)

theorem hostOp_wbuf {s : State} {i : Nat} (b : Byte) (hi : i < s.cfg.bufMax) :
    hostOp (.wbuf i b) s = .next (if s.busy then s else s.storeByte i b) :=
  if_pos hi

theorem hostOp_wbuf_busy {s : State} {i : Nat} (b : Byte) (hi : i < s.cfg.bufMax) (hbusy : s.busy = true) :
    hostOp (.wbuf i b) s = .next s := by
  rw [hostOp_wbuf b hi, if_pos hbusy]

theorem hostOp_wbuf_idle {s : State} {i : Nat} (b : Byte) (hi : i < s.cfg.bufMax) (hbusy : s.busy = false) :
    hostOp (.wbuf i b) s = .next (s.storeByte i b) := by
  rw [hostOp_wbuf b hi, if_neg (by simp [hbusy])]

/-- Stores to different cells commute. -/
theorem State.storeByte_comm {s : State} (hwf : s.buf.wf) {i j : Nat} (b c : Byte) (hij : i ≠ j) :
    (s.storeByte i b).storeByte j c = (s.storeByte j c).storeByte i b := by
  simp only [State.storeByte, Memory.write_comm hwf b c hij]

/-- The last of two stores to one cell wins. -/
theorem State.storeByte_storeByte {s : State} (hwf : s.buf.wf) (i : Nat) (b c : Byte) :
    (s.storeByte i b).storeByte i c = s.storeByte i c := by
  simp only [State.storeByte, Memory.write_write hwf i b c]

theorem State.storeByte_valid_same (s : State) (i : Nat) (b : Byte) : (s.storeByte i b).valid i = true := by
  simp [State.valid, Memory.valid_write]

theorem State.storeByte_valid_other (s : State) {i a : Nat} (b : Byte) (ha : a ≠ i) :
    (s.storeByte i b).valid a = s.valid a := by
  simp [State.valid, Memory.valid_write, ha]

/-- WBUFs to different cells give the same state in either order. -/
theorem hostOp_wbuf_comm {s t t' : State} (hwf : s.buf.wf) {i j : Nat} {b c : Byte} (hij : i ≠ j)
    (ht : hostOp (.wbuf i b) s = .next t) (ht' : hostOp (.wbuf j c) s = .next t') :
    ∃ u, hostOp (.wbuf j c) t = .next u ∧ hostOp (.wbuf i b) t' = .next u := by
  obtain ⟨hi, rfl⟩ := writeBuffer_next ht
  obtain ⟨hj, rfl⟩ := writeBuffer_next ht'
  cases hbusy : s.busy with
  | true => exact ⟨s, hostOp_wbuf_busy c hj hbusy, hostOp_wbuf_busy b hi hbusy⟩
  | false =>
    refine ⟨(s.storeByte i b).storeByte j c, hostOp_wbuf_idle c hj hbusy, ?_⟩
    rw [State.storeByte_comm hwf b c hij]
    exact hostOp_wbuf_idle b hi hbusy

/-- Of two WBUFs to one cell only the last counts. -/
theorem hostOp_wbuf_wbuf {s t : State} (hwf : s.buf.wf) {i : Nat} {b : Byte} (c : Byte)
    (ht : hostOp (.wbuf i b) s = .next t) : hostOp (.wbuf i c) t = hostOp (.wbuf i c) s := by
  obtain ⟨hi, rfl⟩ := writeBuffer_next ht
  cases hbusy : s.busy with
  | true => rfl
  | false =>
    rw [hostOp_wbuf_idle c hi hbusy, ← State.storeByte_storeByte hwf i b c]
    exact hostOp_wbuf_idle c hi hbusy

/-- Settles O16: an accepted WBUF is one store, and stores commute or overwrite each other. -/
theorem writeBufferStoresOneCell : Obligations.WriteBufferStoresOneCell := by
  unfold Obligations.WriteBufferStoresOneCell
  refine fun s i b => ⟨hostOp_wbuf_out_of_range b, hostOp_wbuf_busy b, fun hi hbusy => ?_,
    fun hwf j c t t' => hostOp_wbuf_comm hwf, fun hwf c t => hostOp_wbuf_wbuf hwf c⟩
  exact ⟨s.storeByte i b, hostOp_wbuf_idle b hi hbusy, rfl, Memory.read_write_same s.buf i b,
    s.storeByte_valid_same i b, fun a ha => ⟨Memory.read_write_other s.buf i a b ha, s.storeByte_valid_other b ha⟩⟩

theorem hostOp_wlen_busy {s : State} (n : Nat) (hbusy : s.busy = true) : hostOp (.wlen n) s = .next s :=
  congrArg Host.Outcome.next (if_pos hbusy)

theorem hostOp_wlen_idle {s : State} (n : Nat) (hbusy : s.busy = false) : hostOp (.wlen n) s = .next (s.setLen n) :=
  congrArg Host.Outcome.next (if_neg (by simp [hbusy]))

/-- Every length up to BUF_MAX fits the register. -/
theorem State.setLen_of_le {s : State} {n : Nat} (hn : n ≤ s.cfg.bufMax) : s.setLen n = { s with len := n } := by
  have hlt : n < 2 ^ s.cfg.lenBits := Nat.lt_of_le_sub_one (Nat.two_pow_pos _) hn
  rw [State.setLen, Nat.mod_eq_of_lt hlt]

/-- WLEN and WBUF give the same state in either order. -/
theorem hostOp_wlen_wbuf_comm {s t t' : State} {n i : Nat} {b : Byte}
    (ht : hostOp (.wlen n) s = .next t) (ht' : hostOp (.wbuf i b) s = .next t') :
    ∃ u, hostOp (.wbuf i b) t = .next u ∧ hostOp (.wlen n) t' = .next u := by
  obtain ⟨hi, rfl⟩ := writeBuffer_next ht'
  cases hbusy : s.busy with
  | true =>
    cases (hostOp_wlen_busy n hbusy).symm.trans ht
    exact ⟨s, hostOp_wbuf_busy b hi hbusy, hostOp_wlen_busy n hbusy⟩
  | false =>
    cases (hostOp_wlen_idle n hbusy).symm.trans ht
    exact ⟨(s.setLen n).storeByte i b, hostOp_wbuf_idle b hi hbusy, hostOp_wlen_idle n hbusy⟩

/-- Settles O17: the register keeps every length in its range, and LEN and BUF are separate fields. -/
theorem writeLenStoresTheLength : Obligations.WriteLenStoresTheLength := by
  unfold Obligations.WriteLenStoresTheLength
  refine fun s n hn => ⟨fun hbusy => ?_, hostOp_wlen_busy n, fun i b t t' => hostOp_wlen_wbuf_comm⟩
  rw [hostOp_wlen_idle n hbusy, State.setLen_of_le hn]

/-! ### Reads (R90 to R92) -/

/-- Settles O19: the two answers of RRESULT, and the invariant's account of RESULT under DONE = 1. -/
theorem resultReads : Obligations.ResultReads := by
  unfold Obligations.ResultReads
  refine fun s => ⟨hostOp_rresult_done, hostOp_rresult_not_done, fun hinv hdone => ?_⟩
  obtain ⟨hresult, hrkind⟩ := hinv.done_result hdone
  rw [hresult, hrkind, checkWord]

theorem hostOp_rlen (s : State) : hostOp .rlen s = .next (s.reply (.len s.len)) := rfl

theorem hostOp_rctrl (s : State) : hostOp .rctrl s = .next (s.reply (.ctrl 0x00#8)) := rfl

/-- A write of STATUS or RESULT has no effect (R92). -/
theorem hostOp_writeReg_readOnly (s : State) (v : Nat) :
    hostOp (.writeReg 2 v) s = .next s ∧ hostOp (.writeReg 3 v) s = .next s :=
  ⟨hostOp_writeReg_status s v, rfl⟩

/-- There is no register above index 3 (R13, R92). -/
theorem hostOp_noSuchRegister (s : State) {index : Nat} (v : Nat) (hindex : 3 < index) :
    hostOp (.writeReg index v) s = .refused .noSuchRegister ∧
    hostOp (.readReg index) s = .refused .noSuchRegister := by
  obtain ⟨n, rfl⟩ : ∃ n, index = n + 4 := ⟨index - 4, by omega⟩
  exact ⟨rfl, rfl⟩

/-- RRESULT tells the host the result or the next free value, and nothing else (R91). -/
theorem readResult_replies (s : State) :
    (readResult s).replies = .result (if s.done then s.result else Config.freeResult s.draws) :: s.replies := by
  cases hdone : s.done with
  | true => rw [readResult_done hdone]; rfl
  | false => rw [readResult_not_done hdone]; rfl

/-- A poll of WAIT tells the host STATUS, and nothing else (R55). -/
theorem pollDone_replies (s : State) : (pollDone s).replies = .status s.statusWord :: s.replies := by
  cases hdone : s.done with
  | true => rw [pollDone_done hdone]; rfl
  | false => rw [pollDone_not_done hdone]; rfl

/-- A read answers alike in two states that differ in the hidden registers and BUF alone (R92). -/
theorem read_ignores_hidden_state {op : HostOp} {s t : State} (a b : SumWord) (n : Nat) (k : Kind) (m : Memory)
    (hread : op = .wait ∨ ∃ index, op = .readReg index) (hop : hostOp op s = .next t) :
    ∃ t', hostOp op { s with sum1 := a, sum2 := b, ucnt := n, kindr := k, buf := m } = .next t' ∧
      t'.replies = t.replies := by
  rcases hread with rfl | ⟨index, rfl⟩
  · cases hop
    exact ⟨_, rfl, by rw [pollDone_replies, pollDone_replies]; rfl⟩
  · match index with
    | 0 | 1 | 2 => cases hop; exact ⟨_, rfl, rfl⟩
    | 3 => cases hop; exact ⟨_, rfl, by rw [readResult_replies, readResult_replies]⟩
    | index + 4 => cases hop

/-- Settles O20: each register by its index, and what the reads return as a function of the visible state. -/
theorem otherRegisterAccesses : Obligations.OtherRegisterAccesses :=
  fun s => ⟨hostOp_rlen s, hostOp_rctrl s, hostOp_writeReg_readOnly s, fun _ => hostOp_noSuchRegister s,
    fun _ _ => read_ignores_hidden_state⟩

/-! ### The engine (R93 to R95) -/

namespace State

/-- The bytes a unit step takes below LEN are loaded before it (R89 case 3, R93). -/
theorem Inv.read_of_lt {s : State} (hinv : s.Inv) (hbusy : s.busy = true) {a : Nat} (ha : a < s.len) :
    ∃ b, s.buf.read? a = some b :=
  (Memory.valid_iff s.buf a).1 (hinv.run_loaded hbusy a ha)

/-- The unit step written out (R73, R93): the sums it leaves, in their registers and as numbers. -/
theorem unitStep_eq {s : State} {u s1 s2 : Nat} (hu : s.unit s.ucnt = u)
    (h1 : (s.sum1.toNat + u) % s.kindr.modulus = s1) (h2 : (s.sum2.toNat + s1) % s.kindr.modulus = s2) :
    s.unitStep = { s with sum1 := BitVec.ofNat 32 s1, sum2 := BitVec.ofNat 32 s2, ucnt := s.ucnt + 1 } ∧
    s.unitStep.sum1.toNat = s1 ∧ s.unitStep.sum2.toNat = s2 := by
  subst hu h1 h2
  exact ⟨rfl, Prod.mk.inj s.unitStep_sums⟩

/-- Without a unit to take, the engine leaves the sums and UCNT alone (R94, R95). -/
theorem engineStep_keeps_sums {s : State} (h : ¬(s.busy = true ∧ s.ucnt < s.unitCount)) :
    s.engineStep.ucnt = s.ucnt ∧ s.engineStep.sum1 = s.sum1 ∧ s.engineStep.sum2 = s.sum2 := by
  rcases s.engineStep_cases with ⟨hbusy, hu, -⟩ | ⟨-, -, he⟩ | ⟨-, he⟩
  · exact absurd ⟨hbusy, hu⟩ h
  · rw [he]; exact ⟨rfl, rfl, rfl⟩
  · rw [he]; exact ⟨rfl, rfl, rfl⟩

/-- Short of the last unit, the engine leaves the result, the flags and VALID alone (R93, R95). -/
theorem engineStep_keeps_result {s : State} (h : ¬(s.busy = true ∧ s.ucnt = s.unitCount)) :
    s.engineStep.result = s.result ∧ s.engineStep.rkind = s.rkind ∧ s.engineStep.busy = s.busy ∧
    s.engineStep.done = s.done ∧ ∀ i, s.engineStep.valid i = s.valid i := by
  rcases s.engineStep_cases with ⟨-, -, he⟩ | ⟨hbusy, hu, -⟩ | ⟨-, he⟩
  · rw [he]; exact ⟨rfl, rfl, rfl, rfl, fun _ => rfl⟩
  · exact absurd ⟨hbusy, hu⟩ h
  · rw [he]; exact ⟨rfl, rfl, rfl, rfl, fun _ => rfl⟩

/-- Finalisation discards the buffer (R94). -/
theorem finalise_valid (s : State) (i : Nat) : s.finalise.valid i = false := Memory.valid_nil i

/-- A running calculation moves on at every turn of the engine (R95). -/
theorem engineStep_ne {s : State} (hbusy : s.busy = true) (hle : s.ucnt ≤ s.unitCount) : s.engineStep ≠ s := by
  intro hsame
  rcases Nat.lt_or_eq_of_le hle with hu | hu
  · have hucnt : s.unitStep.ucnt = s.ucnt := congrArg State.ucnt ((engineStep_unit hbusy hu).symm.trans hsame)
    simp at hucnt
  · have hflag : s.finalise.busy = s.busy := congrArg State.busy ((engineStep_finalise hbusy hu).symm.trans hsame)
    simp [hbusy] at hflag

end State

/-- Settles O24: the unit step as the engine's step, its frame, and the loaded buffer of the invariant. -/
theorem unitStepAddsOneUnit : Obligations.UnitStepAddsOneUnit := by
  unfold Obligations.UnitStepAddsOneUnit
  refine fun s => ⟨fun hbusy hu => ?_, State.engineStep_keeps_sums, fun hinv hbusy j _ => hinv.read_of_lt hbusy⟩
  rw [State.engineStep_unit hbusy hu]
  exact State.unitStep_eq (unitValue_eq_assemble_range _ _ _ _ _) rfl rfl

/-- Settles O25: the finalisation step as the engine's step, and its frame; no command finds a cell valid after it. -/
theorem finalisationDeliversTheResult : Obligations.FinalisationDeliversTheResult := by
  unfold Obligations.FinalisationDeliversTheResult
  refine fun s => ⟨fun hbusy hu => ?_, State.engineStep_keeps_result⟩
  rw [State.engineStep_finalise hbusy hu]
  exact ⟨rfl, s.finalise_valid, fun hlen i => exec_refuses i s.finalise_busy ⟨0, hlen, s.finalise_valid 0⟩⟩

/-- Settles O26: under the invariant UCNT is at most NUNITS, so one of the two steps is enabled, and both change the
state. -/
theorem engineIsDeterministicAndNeverStuck : Obligations.EngineIsDeterministicAndNeverStuck := by
  unfold Obligations.EngineIsDeterministicAndNeverStuck
  refine ⟨fun s => step_engine, fun s => State.engineStep_not_busy, fun s hinv hbusy => ?_⟩
  have hle := hinv.run_ucnt hbusy
  exact ⟨by omega, State.engineStep_ne hbusy hle⟩

/-! ### The phases (R86) -/

namespace State

theorem phase_eq_run_iff (s : State) : s.phase = .run ↔ s.busy = true := by
  unfold phase
  cases s.busy <;> cases s.done <;> simp

theorem phase_eq_done_iff (s : State) : s.phase = .done ↔ s.busy = false ∧ s.done = true := by
  unfold phase
  cases s.busy <;> cases s.done <;> simp

theorem phase_eq_idle_iff (s : State) : s.phase = .idle ↔ s.busy = false ∧ s.done = false := by
  unfold phase
  cases s.busy <;> cases s.done <;> simp

/-- Under the invariant a busy block is not done (R18). -/
theorem Inv.phase_eq_run_iff {s : State} (hinv : s.Inv) : s.phase = .run ↔ s.busy = true ∧ s.done = false := by
  rw [s.phase_eq_run_iff]
  exact ⟨fun hbusy => ⟨hbusy, Bool.eq_false_iff.2 fun hdone => hinv.flags ⟨hbusy, hdone⟩⟩, And.left⟩

/-- The phase is read off the two flags. -/
theorem phase_congr {s t : State} (hbusy : t.busy = s.busy) (hdone : t.done = s.done) : t.phase = s.phase := by
  rw [phase, phase, hbusy, hdone]

end State

/-- A host operation keeps the phase, but for a command an idle block accepts (R86, R89). -/
theorem hostOp_phase {op : HostOp} {s t : State} (hop : hostOp op s = .next t) :
    t.phase = s.phase ∨ (s.busy = false ∧ ∃ (i : Instr) (v : Nat), op = .writeReg 0 v ∧
      decode (BitVec.ofNat 8 v) = .command i ∧ t = s.accept i.kind) := by
  rcases hostOp_cases hop with rfl | ⟨_, _, -, -, -, rfl⟩ | ⟨_, -, -, rfl⟩ | ⟨v, i, hv, hd, hbusy, -, rfl⟩ | ⟨_, rfl⟩ |
    ⟨-, -, rfl⟩ | ⟨-, -, rfl⟩
  case inr.inr.inr.inl => exact .inr ⟨hbusy, i, v, hv, hd, rfl⟩
  all_goals exact .inl (State.phase_congr rfl rfl)

/-- An engine step keeps the phase, but for the finalisation step (R86, R94). -/
theorem engineStep_phase (s : State) :
    s.engineStep.phase = s.phase ∨ (s.busy = true ∧ s.ucnt = s.unitCount ∧ s.engineStep = s.finalise) := by
  rcases s.engineStep_cases with ⟨-, -, he⟩ | hfinalise | ⟨-, he⟩
  · rw [he]; exact .inl (State.phase_congr rfl rfl)
  · exact .inr hfinalise
  · exact .inl (congrArg State.phase he)

/-- Settles O39: the phases by their flags, and the transitions agent by agent. -/
theorem phaseTransitions : Obligations.PhaseTransitions := by
  unfold Obligations.PhaseTransitions
  intro s t hinv hstep
  refine ⟨s.phase_eq_idle_iff, hinv.phase_eq_run_iff, s.phase_eq_done_iff, ?_⟩
  rcases step_cases hstep with ⟨-, -, rfl⟩ | ⟨hturn, op, ops, hprogram, hop⟩ | ⟨hturn, rfl⟩ | ⟨hturn, rfl⟩
  · exact .inl rfl
  · rcases hostOp_phase hop with hsame | ⟨hbusy, i, v, rfl, hd, rfl⟩
    · exact .inl hsame
    · have hidle : s.phase ≠ .run := by simpa [s.phase_eq_run_iff] using hbusy
      exact .inr (.inl ⟨hidle, rfl, hturn, i, v, ops, hprogram, fun _ => hd, rfl⟩)
  · rcases engineStep_phase { s with schedule := s.schedule.tail } with hsame | ⟨hbusy, hu, he⟩
    · exact .inl hsame
    · exact .inr (.inr (.inl ⟨s.phase_eq_run_iff.2 hbusy, by rw [he]; rfl, hturn, hu, he⟩))
  · exact .inr (.inr (.inr ⟨rfl, hturn⟩))

end Machine
end Sys2Proof
end

