-- ==== Sys2Proof/Proofs/Exceptions.lean ====
section
/-! PROOF. What is refused, and that nothing else stops a step (60_exceptions.md R103, R104). -/

namespace Sys2Proof

/-- The words that decode to a command, by value (R46). -/
theorem mem_commandWords_iff (w : Byte) : w ∈ [0x00#8, 0x01#8, 0x02#8] ↔ ∃ i, decode w = .command i := by
  constructor
  · intro hmem
    rcases List.mem_cons.1 hmem with rfl | hmem
    · exact ⟨_, decode_encode .fletcher16⟩
    rcases List.mem_pair.1 hmem with rfl | rfl
    · exact ⟨_, decode_encode .fletcher32⟩
    · exact ⟨_, decode_encode .fletcher64⟩
  · rintro ⟨i, hi⟩
    rcases decode_cases w with ⟨-, hd⟩ | ⟨-, -, hd⟩ | ⟨j, rfl, -⟩
    · simp [hd] at hi
    · simp [hd] at hi
    · cases j <;> decide

namespace Machine

/-- A write to CTRL is refused while BUSY = 0 alone: for its word, or for a command over a cell that is not valid (R89). -/
theorem writeCtrl_refused_iff {w : Byte} {s : State} {r : Refusal} :
    writeCtrl w s = .refused r ↔
      (r = .reservedCommand ∧ s.busy = false ∧ w ∉ [0x00#8, 0x01#8, 0x02#8]) ∨
      (r = .bufferNotLoaded ∧ s.busy = false ∧ (∃ i < s.len, s.valid i = false) ∧ w ∈ [0x00#8, 0x01#8, 0x02#8]) := by
  rw [mem_commandWords_iff]
  cases hd : decode w with
  | command i =>
    rw [writeCtrl_command s hd, exec_eq_issue, issue_refused_iff, State.loaded_eq_false_iff]
    simp only [Decoded.command.injEq, exists_eq', not_true]
    tauto
  | reserved why =>
    rw [writeCtrl, hd]
    cases s.busy <;> simp [@eq_comm _ r]

/-- A host operation is refused for R104's four reasons alone. A write to CTRL is judged by the low 8 bits of its operand
(log 10). -/
theorem hostOp_refused_iff {op : HostOp} {s : State} {r : Refusal} :
    hostOp op s = .refused r ↔
      (r = .reservedCommand ∧ s.busy = false ∧
        ∃ v, op = .writeReg 0 v ∧ BitVec.ofNat 8 v ∉ [0x00#8, 0x01#8, 0x02#8]) ∨
      (r = .bufferNotLoaded ∧ s.busy = false ∧ (∃ i < s.len, s.valid i = false) ∧
        ∃ v, op = .writeReg 0 v ∧ BitVec.ofNat 8 v ∈ [0x00#8, 0x01#8, 0x02#8]) ∨
      (r = .bufferIndexOutOfRange ∧ ∃ i b, op = .wbuf i b ∧ s.cfg.bufMax ≤ i) ∨
      (r = .noSuchRegister ∧ ∃ index, 3 < index ∧ (op = .readReg index ∨ ∃ v, op = .writeReg index v)) := by
  match op with
  | .wbuf i b =>
    rcases Nat.lt_or_ge i s.cfg.bufMax with hi | hi
    · simp [hostOp_wbuf b hi, hi]
    · simp [hostOp_wbuf_out_of_range b hi, hi, @eq_comm _ r]
  | .writeReg 0 v => simp [hostOp, writeRegister, writeCtrl_refused_iff]
  | .writeReg 1 v | .writeReg 2 v | .writeReg 3 v => simp [hostOp, writeRegister, writeLen]
  | .readReg 0 | .readReg 1 | .readReg 2 | .readReg 3 => simp [hostOp, readRegister]
  | .writeReg (n + 4) v | .readReg (n + 4) => simp [hostOp, writeRegister, readRegister, @eq_comm _ r]
  | .wait => simp [hostOp]

/-- Over operands of 8 bits, CMD is every write to CTRL (R44, R54). -/
theorem exists_cmd_iff {op : HostOp} (hword : ∀ v, op = .writeReg 0 v → v < 2 ^ 8) {P : Byte → Prop} :
    (∃ w, op = .cmd w ∧ P w) ↔ ∃ v, op = .writeReg 0 v ∧ P (BitVec.ofNat 8 v) := by
  constructor
  · rintro ⟨w, rfl, hw⟩
    exact ⟨w.toNat, rfl, by simpa using hw⟩
  · rintro ⟨v, rfl, hv⟩
    exact ⟨BitVec.ofNat 8 v, by rw [HostOp.cmd, BitVec.toNat_ofNat, Nat.mod_eq_of_lt (hword v rfl)], hv⟩

/-- Settles O22: a refused step is a refused host operation, and the operand's 8 bits make a write to CTRL a CMD. -/
theorem refusalsAreTheFourReasons : Obligations.RefusalsAreTheFourReasons := by
  unfold Obligations.RefusalsAreTheFourReasons
  intro s r hword
  rw [step_refused_iff]
  refine and_congr_right fun _ => exists_congr fun op => exists_congr fun ops => and_congr_right fun hprogram => ?_
  have hbits : ∀ v, op = .writeReg 0 v → v < 2 ^ 8 := fun v hop => hword v ops (hop ▸ hprogram)
  simp only [exists_cmd_iff hbits]
  exact hostOp_refused_iff

/-- A command goes on when the block is busy or the buffer loaded (R89 cases 1 and 4). -/
theorem exec_goes_on {s : State} (i : Instr) (h : s.busy = true ∨ ∀ j < s.len, s.valid j = true) :
    ∃ t, exec i s = .next t := by
  cases hbusy : s.busy with
  | true => exact ⟨s, (exec_eq_issue i s).trans (issue_busy _ hbusy)⟩
  | false => exact ⟨_, exec_accepts i hbusy (h.resolve_left (by simp [hbusy]))⟩

/-- Settles O23: there is no fault, and a refusal has one of the four reasons; an operand wider than CTRL is none of the
three words, whatever its low 8 bits are. -/
theorem stepsGoOnUnlessRefused : Obligations.StepsGoOnUnlessRefused := by
  unfold Obligations.StepsGoOnUnlessRefused
  refine ⟨fun s => ?_, fun s i c n m h => exec_goes_on (s := { s with cfg := c, len := n, buf := m }) i h⟩
  cases hstep : step s with
  | next t => exact .inl ⟨t, rfl⟩
  | fault f => cases f
  | refused r =>
    obtain ⟨hturn, op, ops, hprogram, hop⟩ := step_refused_iff.1 hstep
    refine .inr ⟨⟨r, rfl⟩, hturn, op, ops, hprogram, ?_⟩
    rcases hostOp_refused_iff.1 hop with ⟨-, hbusy, v, rfl, hv⟩ | ⟨-, hbusy, hmissing, v, rfl, -⟩ | ⟨-, hcell⟩ |
      ⟨-, hindex⟩
    · exact .inl ⟨hbusy, v, rfl, fun hmem => hv (List.mem_map_of_mem (f := BitVec.ofNat 8) hmem)⟩
    · by_cases hv : v ∈ [0x00, 0x01, 0x02]
      · exact .inr (.inl ⟨hbusy, hmissing, v, rfl, hv⟩)
      · exact .inl ⟨hbusy, v, rfl, hv⟩
    · exact .inr (.inr (.inl hcell))
    · exact .inr (.inr (.inr hindex))

end Machine
end Sys2Proof
end

