-- ==== Sys2Proof/Proofs/Reset.lean ====
section
/-! PROOF. The reset event (70_reset_and_hazards.md R112): what it leaves in the block, what the host then reads, and that
the host cannot cause one. -/

namespace Sys2Proof.Machine

namespace State

/-- Reset makes every buffer cell invalid (R25, R112). -/
theorem resetBlock_valid (s : State) (i : Nat) : s.resetBlock.valid i = false := Memory.valid_nil i

/-- Reset leads to IDLE from any phase (R112). -/
theorem resetBlock_phase (s : State) : s.resetBlock.phase = .idle :=
  s.resetBlock.phase_eq_idle_iff.2 ⟨s.resetBlock_busy, s.resetBlock_done⟩

/-- STATUS after the event is STATUS after reset: it reads the block's own fields alone. -/
theorem resetBlock_statusWord (s : State) : s.resetBlock.statusWord = 0x00#8 := statusWord_resetWith s.cfg

/-- Reset leaves the engine nothing to do, whatever calculation it ended (R95, R112). -/
theorem resetBlock_engineStep (s : State) : s.resetBlock.engineStep = s.resetBlock :=
  engineStep_not_busy s.resetBlock_busy

end State

/-- RSTATUS after reset (R27, R90). -/
theorem hostOp_rstatus_resetBlock (s : State) :
    hostOp .rstatus s.resetBlock = .next (s.resetBlock.reply (.status 0x00#8)) := by
  rw [hostOp_rstatus, s.resetBlock_statusWord]

/-- The only phase a host operation leads to is RUN: there is no soft reset (R86, R112). -/
theorem hostOp_phase_same_or_run {op : HostOp} {s t : State} (hop : hostOp op s = .next t) :
    t.phase = s.phase ∨ t.phase = .run := by
  rcases hostOp_phase hop with hsame | ⟨-, i, -, -, -, rfl⟩
  · exact .inl hsame
  · exact .inr ((s.accept i.kind).phase_eq_run_iff.2 (s.accept_busy i.kind))

/-- Settles O33: the platform's turn is `resetBlock`, field by field and read by read; a host operation keeps the phase or
starts a run. -/
theorem resetEvent : Obligations.ResetEvent := by
  unfold Obligations.ResetEvent
  refine ⟨fun s hturn => ⟨_, step_reset hturn, ?_⟩, fun op s t => hostOp_phase_same_or_run⟩
  exact ⟨rfl, State.resetBlock_busy _, State.resetBlock_done _, rfl, State.resetBlock_len _, State.resetBlock_sum1 _,
    State.resetBlock_sum2 _, State.resetBlock_ucnt _, State.resetBlock_valid _, State.resetBlock_phase _,
    State.resetBlock_engineStep _, hostOp_rstatus_resetBlock _, hostOp_rlen _, hostOp_rctrl _,
    hostOp_rresult_not_done (State.resetBlock_done _)⟩

end Sys2Proof.Machine
end

