-- ==== Sys2Proof/Proofs/Other.lean ====
section
/-! PROOF. The whole machine: the invariant and what a step leaves unchanged, the closed form of a calculation and its
outcome, calculations interleaved with the host, and what the host can tell of the hidden state. -/

namespace Sys2Proof.Machine

/-! ### Command words at a step (R44, R46, R89) -/

/-- Settles O2: the decoder inverts the encoder, and a word that is a command is some encoded word, hence that one. -/
theorem encodingAndDecodingAgree : Obligations.EncodingAndDecodingAgree := by
  unfold Obligations.EncodingAndDecodingAgree
  refine ⟨decode_encode, fun w i hd => ?_⟩
  obtain ⟨j, rfl⟩ : ∃ j, w = encode j := by
    rcases decode_cases w with ⟨-, hr⟩ | ⟨-, -, hr⟩ | ⟨j, hw, -⟩
    · simp [hr] at hd
    · simp [hr] at hd
    · exact ⟨j, hw⟩
  rw [decode_encode] at hd
  rw [Decoded.command.inj hd]

/-- Settles O3: the three written-out words are the encoded ones, and the four others have a reserved field. -/
theorem writtenOutWordsDecode : Obligations.WrittenOutWordsDecode := by
  unfold Obligations.WrittenOutWordsDecode
  refine ⟨decode_encode .fletcher16, decode_encode .fletcher32, decode_encode .fletcher64, ?_, ?_, ?_, ?_,
    congrArg Decoded.instr? (decode_encode .fletcher64)⟩
  all_goals
    rw [decode_instr?_eq_none_iff]
    decide

/-- A host turn whose operation is CMD on a command's word executes the command. -/
theorem step_cmd {s : State} {i : Instr} {w : Byte} {ops : List HostOp} (hturn : s.nextTurn = .host)
    (hprogram : s.program = .cmd w :: ops) (hd : decode w = .command i) :
    step s = exec i { s with program := ops, schedule := s.schedule.tail } := by
  rw [step_host hturn hprogram, hostOp_cmd_command _ hd]

/-- Settles O4: the host's turn performs CMD, and CMD on a command's word is the command. -/
theorem stepRunsTheDecodedCommand : Obligations.StepRunsTheDecodedCommand :=
  fun _ _ _ _ => step_cmd

theorem decode_tableWord {nbits w : Nat} {i : Instr} (h : decodeTableWord nbits w = some i) :
    decode (tableWord nbits w) = .command i := by
  rw [decodeTableWord] at h
  cases hd : decode (tableWord nbits w) with
  | command j => rw [hd] at h; exact congrArg Decoded.command (Option.some.inj h)
  | reserved why => rw [hd] at h; cases h

/-- Settles O5: the placed word stands first in the program at a host turn, and taking both off gives the state back. -/
theorem placedCommandRunsAtTheNextStep : Obligations.PlacedCommandRunsAtTheNextStep :=
  fun s nbits w _ h => step_cmd (s := s.withFetchWord nbits w) rfl rfl (decode_tableWord h)

/-- Settles O9: a command that goes on is dropped or accepted. -/
theorem commandFrame : Obligations.CommandFrame := by
  unfold Obligations.CommandFrame
  intro i s t h
  rw [exec_eq_issue] at h
  rcases issue_cases h with ⟨-, rfl⟩ | ⟨hbusy, -, rfl⟩
  · exact ⟨rfl, rfl, rfl, rfl, fun _ => rfl, fun _ => rfl, rfl, rfl, rfl, rfl, fun _ => rfl⟩
  · exact ⟨rfl, rfl, rfl, rfl, fun _ => rfl, fun _ => rfl, rfl, rfl, rfl, rfl, fun h => by simp [hbusy] at h⟩

/-- Settles O32: STATUS after reset is known, and the reads are those of a state with DONE = 0. -/
theorem resetState : Obligations.ResetState := by
  unfold Obligations.ResetState
  refine ⟨fun c => ?_, rfl⟩
  exact ⟨State.resetWith_busy c, State.resetWith_done c, rfl, statusWord_resetWith c, State.resetWith_len c,
    State.resetWith_sum1 c, State.resetWith_sum2 c, State.resetWith_ucnt c, Memory.valid_nil, hostOp_rctrl _,
    hostOp_rresult_not_done (State.resetWith_done c)⟩

/-! ### The host's record, and turns (logs 3 to 6) -/

/-- The block of `s` with the model's own fields of `u`: the program, the turns to come, the replies and the draws. -/
def State.withRecord (s u : State) : State :=
  { s with program := u.program, schedule := u.schedule, replies := u.replies, draws := u.draws }

/-- The engine neither reads nor writes the host's record. -/
theorem State.withRecord_engineStep (s u : State) : (s.withRecord u).engineStep = s.engineStep.withRecord u := by
  rcases s.engineStep_cases with ⟨hbusy, hu, he⟩ | ⟨hbusy, hu, he⟩ | ⟨hidle | hu, he⟩ <;> rw [he]
  · exact engineStep_unit (s := s.withRecord u) hbusy hu
  · exact engineStep_finalise (s := s.withRecord u) hbusy hu
  · exact engineStep_not_busy (s := s.withRecord u) hidle
  · exact engineStep_beyond (s := s.withRecord u) hu

theorem hostTurn_nil {s : State} (hp : s.program = []) : hostTurn s = .next s := by
  rw [hostTurn, hp]

theorem hostTurn_cons {s : State} {op : HostOp} {ops : List HostOp} (hp : s.program = op :: ops) :
    hostTurn s = hostOp op { s with program := ops } := by
  rw [hostTurn, hp]

/-- At the host's turn the step is `hostTurn`, whether or not the host has an operation left. -/
theorem step_hostTurn {s : State} (h : s.nextTurn = .host) :
    step s = hostTurn { s with schedule := s.schedule.tail } := by
  rw [step, h, takeTurn]

/-- Settles O45: the turn is read off the schedule, or off BUSY, and the host's turn off its program. -/
theorem turnsAreTakenInOrder : Obligations.TurnsAreTakenInOrder := by
  unfold Obligations.TurnsAreTakenInOrder
  refine fun s => ⟨fun x rest => State.nextTurn_cons, fun hs hbusy => ?_, fun hs hbusy => ?_, step_host_nil,
    fun op ops => step_host⟩
  · rw [State.nextTurn_nil hs, if_pos hbusy]
  · rw [State.nextTurn_nil hs, if_neg (by simp [hbusy])]

/-! ### The invariant -/

namespace State

/-- The invariant speaks of the block alone. -/
theorem Inv.withRecord {s : State} (h : s.Inv) (u : State) : (s.withRecord u).Inv :=
  ⟨h.cfg_wf, h.buf_wf, h.buf_range, h.len_range, h.ucnt_range, h.flags, h.sum1_range, h.sum2_range, h.run_loaded,
    h.run_ucnt, h.run_sums, h.done_result⟩

/-- The state after reset meets the invariant: it holds no byte, has no calculation and no result (R27). -/
theorem inv_resetWith {c : Config} (hc : c.wellFormed = true) : (resetWith c).Inv where
  cfg_wf := hc
  buf_wf := Memory.wf_discarded
  buf_range _ hcell := absurd hcell List.not_mem_nil
  len_range := Nat.zero_le _
  ucnt_range := Nat.zero_le _
  flags h := Bool.false_ne_true h.1
  sum1_range := Kind.modulus_pos _
  sum2_range := Kind.modulus_pos _
  run_loaded h := absurd h Bool.false_ne_true
  run_ucnt h := absurd h Bool.false_ne_true
  run_sums h := absurd h Bool.false_ne_true
  done_result h := absurd h Bool.false_ne_true

/-- While BUSY = 0 no calculation depends on BUF and LEN, so any in range will do. -/
theorem Inv.withOperands {s : State} (h : s.Inv) (hidle : s.busy = false) {m : Memory} {n : Nat} (hwf : m.wf)
    (hrange : ∀ c ∈ m, c.1 < s.cfg.bufMax) (hn : n ≤ s.cfg.bufMax) : ({ s with buf := m, len := n } : State).Inv where
  cfg_wf := h.cfg_wf
  buf_wf := hwf
  buf_range := hrange
  len_range := hn
  ucnt_range := h.ucnt_range
  flags := h.flags
  sum1_range := h.sum1_range
  sum2_range := h.sum2_range
  run_loaded hbusy := absurd hbusy (Bool.eq_false_iff.1 hidle)
  run_ucnt hbusy := absurd hbusy (Bool.eq_false_iff.1 hidle)
  run_sums hbusy := absurd hbusy (Bool.eq_false_iff.1 hidle)
  done_result := h.done_result

/-- WBUF stores in range (R87). -/
theorem Inv.storeByte {s : State} (h : s.Inv) (hidle : s.busy = false) {i : Nat} (hi : i < s.cfg.bufMax) (b : Byte) :
    (s.storeByte i b).Inv := by
  refine h.withOperands hidle (Memory.wf_write h.buf_wf i b) (fun c hc => ?_) h.len_range
  rcases Memory.mem_write hc with rfl | hc
  · exact hi
  · exact h.buf_range c hc

/-- Whatever is written to LEN, the register keeps a value in its range (R22). -/
theorem setLen_le (s : State) (n : Nat) : (s.setLen n).len ≤ s.cfg.bufMax :=
  Nat.le_sub_one_of_lt (Nat.mod_lt n (Nat.two_pow_pos _))

/-- WLEN stores in range (R88). -/
theorem Inv.setLen {s : State} (h : s.Inv) (hidle : s.busy = false) (n : Nat) : (s.setLen n).Inv :=
  h.withOperands hidle h.buf_wf h.buf_range (s.setLen_le n)

/-- An acceptance starts a calculation over a loaded buffer, with no unit consumed (R89 case 4). -/
theorem Inv.accept {s : State} (h : s.Inv) (hloaded : s.loaded = true) (k : Kind) : (s.accept k).Inv where
  cfg_wf := h.cfg_wf
  buf_wf := h.buf_wf
  buf_range := h.buf_range
  len_range := h.len_range
  ucnt_range := Nat.zero_le _
  flags hflags := Bool.false_ne_true hflags.2
  sum1_range := k.modulus_pos
  sum2_range := k.modulus_pos
  run_loaded _ := (loaded_iff s).1 hloaded
  run_ucnt _ := Nat.zero_le _
  run_sums _ := rfl
  done_result hdone := absurd hdone Bool.false_ne_true

/-- A unit step consumes the next unit of a calculation; UCNT stays in its register because no calculation has more units
than bytes (R14, R93). -/
theorem Inv.unitStep {s : State} (h : s.Inv) (hbusy : s.busy = true) (hu : s.ucnt < s.unitCount) : s.unitStep.Inv where
  cfg_wf := h.cfg_wf
  buf_wf := h.buf_wf
  buf_range := h.buf_range
  len_range := h.len_range
  ucnt_range := by
    have hunits : s.unitCount ≤ s.len := nunits_le s.cfg s.len s.kindr
    exact Nat.le_trans hu (hunits.trans h.len_range)
  flags := h.flags
  sum1_range := s.unitStep_sumsReduced.1
  sum2_range := s.unitStep_sumsReduced.2
  run_loaded := h.run_loaded
  run_ucnt _ := hu
  run_sums _ := by
    rw [s.unitStep_sums, h.run_sums hbusy]
    exact (s.sumsAfter_succ s.ucnt).symm
  done_result hdone := absurd ⟨hbusy, hdone⟩ h.flags

/-- A finalisation step delivers the calculation's outcome and discards the buffer (R94). -/
theorem Inv.finalise {s : State} (h : s.Inv) : s.finalise.Inv where
  cfg_wf := h.cfg_wf
  buf_wf := Memory.wf_discarded
  buf_range _ hcell := absurd hcell List.not_mem_nil
  len_range := h.len_range
  ucnt_range := h.ucnt_range
  flags hflags := Bool.false_ne_true hflags.1
  sum1_range := h.sum1_range
  sum2_range := h.sum2_range
  run_loaded hbusy := absurd hbusy Bool.false_ne_true
  run_ucnt hbusy := absurd hbusy Bool.false_ne_true
  run_sums hbusy := absurd hbusy Bool.false_ne_true
  done_result _ := ⟨rfl, rfl⟩

theorem Inv.engineStep {s : State} (h : s.Inv) : s.engineStep.Inv := by
  rcases s.engineStep_cases with ⟨hbusy, hu, he⟩ | ⟨-, -, he⟩ | ⟨-, he⟩ <;> rw [he]
  · exact h.unitStep hbusy hu
  · exact h.finalise
  · exact h

theorem Inv.resetBlock {s : State} (h : s.Inv) : s.resetBlock.Inv := (inv_resetWith h.cfg_wf).withRecord s

theorem Inv.hostOp {op : HostOp} {s t : State} (h : s.Inv) (hop : hostOp op s = .next t) : t.Inv := by
  rcases hostOp_cases hop with rfl | ⟨i, b, -, hi, hidle, rfl⟩ | ⟨v, -, hidle, rfl⟩ | ⟨v, i, -, -, -, hloaded, rfl⟩ |
    ⟨r, rfl⟩ | ⟨-, -, rfl⟩ | ⟨-, -, rfl⟩
  · exact h
  · exact h.storeByte hidle hi b
  · exact h.setLen hidle v
  · exact h.accept hloaded i.kind
  · exact h.withRecord (s.reply r)
  · exact h.withRecord s.replyFree
  · exact h.withRecord { s.reply (.status s.statusWord) with program := .wait :: s.program }

theorem Inv.step {s t : State} (h : s.Inv) (hstep : step s = .next t) : t.Inv := by
  rcases step_cases hstep with ⟨-, -, rfl⟩ | ⟨-, op, ops, -, hop⟩ | ⟨-, rfl⟩ | ⟨-, rfl⟩
  · exact h.withRecord { s with schedule := s.schedule.tail }
  · exact (h.withRecord { s with program := ops, schedule := s.schedule.tail }).hostOp hop
  · exact (h.withRecord { s with schedule := s.schedule.tail }).engineStep
  · exact (h.withRecord { s with schedule := s.schedule.tail }).resetBlock

end State

/-- Settles O35: one lemma for each update of the block, put together operation by operation and agent by agent. -/
theorem stepKeepsTheInvariant : Obligations.StepKeepsTheInvariant :=
  fun _ _ => State.Inv.step

/-- Settles O34: the default configuration has LEN_BITS = 16. -/
theorem resetSatisfiesTheInvariant : Obligations.ResetSatisfiesTheInvariant :=
  ⟨fun _ hc => State.inv_resetWith (decide_eq_true hc), State.inv_resetWith rfl⟩

/-! ### What a step leaves unchanged -/

/-- Settles O21: the frame of a host operation performed while BUSY = 1. -/
theorem hostCannotTouchARunningCalculation : Obligations.HostCannotTouchARunningCalculation :=
  fun _ _ _ => hostOp_busy_frame

theorem hostOp_keeps_cfg {op : HostOp} {s t : State} (hop : hostOp op s = .next t) : t.cfg = s.cfg := by
  rcases hostOp_cases hop with rfl | ⟨_, _, -, -, -, rfl⟩ | ⟨_, -, -, rfl⟩ | ⟨_, _, -, -, -, -, rfl⟩ | ⟨_, rfl⟩ |
    ⟨-, -, rfl⟩ | ⟨-, -, rfl⟩
  all_goals rfl

namespace State

theorem engineStep_keeps_cfg_len (s : State) : s.engineStep.cfg = s.cfg ∧ s.engineStep.len = s.len := by
  rcases s.engineStep_cases with ⟨-, -, he⟩ | ⟨-, -, he⟩ | ⟨-, he⟩
  all_goals
    rw [he]
    exact ⟨rfl, rfl⟩

end State

/-- Settles O44: neither the host nor the engine writes the configuration, and the reset event keeps it. -/
theorem configurationNeverChanges : Obligations.ConfigurationNeverChanges := by
  unfold Obligations.ConfigurationNeverChanges
  intro s t hstep
  rcases step_cases hstep with ⟨-, -, rfl⟩ | ⟨-, op, ops, -, hop⟩ | ⟨-, rfl⟩ | ⟨-, rfl⟩
  · rfl
  · exact hostOp_keeps_cfg (s := { s with program := ops, schedule := s.schedule.tail }) hop
  · exact (State.engineStep_keeps_cfg_len _).1
  · rfl

/-- Settles O40: DONE = 1 leaves the engine nothing to do, and of the host's operations only an acceptance touches the
result. -/
theorem resultIsHeldUntilTheNextCommand : Obligations.ResultIsHeldUntilTheNextCommand := by
  unfold Obligations.ResultIsHeldUntilTheNextCommand
  intro s t hinv hdone hstep
  have hidle : s.busy = false := Bool.eq_false_iff.2 fun hbusy => hinv.flags ⟨hbusy, hdone⟩
  rcases step_cases hstep with ⟨-, -, rfl⟩ | ⟨hturn, op, ops, hprogram, hop⟩ | ⟨-, rfl⟩ | ⟨hturn, rfl⟩
  · exact .inl ⟨hdone, rfl, rfl⟩
  · rcases hostOp_cases hop with rfl | ⟨_, _, -, -, -, rfl⟩ | ⟨_, -, -, rfl⟩ | ⟨v, _, rfl, -, -, -, rfl⟩ | ⟨_, rfl⟩ |
      ⟨-, -, rfl⟩ | ⟨-, -, rfl⟩
    case inr.inr.inr.inl => exact .inr (.inl ⟨rfl, rfl, hturn, v, ops, hprogram⟩)
    all_goals exact .inl ⟨hdone, rfl, rfl⟩
  · rw [State.engineStep_not_busy (s := { s with schedule := s.schedule.tail }) hidle]
    exact .inl ⟨hdone, rfl, rfl⟩
  · exact .inr (.inr ⟨rfl, rfl, hturn⟩)

/-- Settles O41: the range is the invariant's after the step; only an acceptance, a unit step and reset write UCNT. -/
theorem unitCounterNeverWraps : Obligations.UnitCounterNeverWraps := by
  unfold Obligations.UnitCounterNeverWraps
  intro s t hinv hstep
  have hinv' := hinv.step hstep
  refine ⟨hinv'.ucnt_range, hinv'.run_ucnt, ?_⟩
  rcases step_cases hstep with ⟨-, -, rfl⟩ | ⟨hturn, op, ops, -, hop⟩ | ⟨hturn, rfl⟩ | ⟨hturn, rfl⟩
  · exact .inl rfl
  · rcases hostOp_cases hop with rfl | ⟨_, _, -, -, -, rfl⟩ | ⟨_, -, -, rfl⟩ | ⟨_, _, -, -, hidle, -, rfl⟩ | ⟨_, rfl⟩ |
      ⟨-, -, rfl⟩ | ⟨-, -, rfl⟩
    case inr.inr.inr.inl => exact .inr (.inr ⟨rfl, .inr ⟨hturn, hidle, rfl⟩⟩)
    all_goals exact .inl rfl
  · rcases State.engineStep_cases { s with schedule := s.schedule.tail } with ⟨hbusy, hu, he⟩ | ⟨-, -, he⟩ | ⟨-, he⟩ <;>
      rw [he]
    · exact .inr (.inl ⟨rfl, hturn, hbusy, hu⟩)
    · exact .inl rfl
    · exact .inl rfl
  · exact .inr (.inr ⟨rfl, .inl hturn⟩)

/-- LEN after a step: as it was, 0 by reset, or what WLEN stored while BUSY = 0. -/
theorem step_len {s t : State} (hstep : step s = .next t) :
    t.len = s.len ∨ (t.len = 0 ∧ s.nextTurn = .reset) ∨
      (s.nextTurn = .host ∧ s.busy = false ∧ ∃ v ops, s.program = .writeReg 1 v :: ops ∧ t.len = (s.setLen v).len) := by
  rcases step_cases hstep with ⟨-, -, rfl⟩ | ⟨hturn, op, ops, hprogram, hop⟩ | ⟨-, rfl⟩ | ⟨hturn, rfl⟩
  · exact .inl rfl
  · rcases hostOp_cases hop with rfl | ⟨_, _, -, -, -, rfl⟩ | ⟨v, rfl, hidle, rfl⟩ | ⟨_, _, -, -, -, -, rfl⟩ | ⟨_, rfl⟩ |
      ⟨-, -, rfl⟩ | ⟨-, -, rfl⟩
    case inr.inr.inl => exact .inr (.inr ⟨hturn, hidle, v, ops, hprogram, rfl⟩)
    all_goals exact .inl rfl
  · exact .inl (State.engineStep_keeps_cfg_len _).2
  · exact .inr (.inl ⟨rfl, hturn⟩)

/-- Settles O42: the three ways LEN is written, and the register's range. -/
theorem lenChangesOnlyByWlen : Obligations.LenChangesOnlyByWlen := by
  unfold Obligations.LenChangesOnlyByWlen
  intro s t hstep
  rw [configurationNeverChanges s t hstep]
  rcases step_len hstep with hlen | ⟨hlen, hturn⟩ | ⟨hturn, hidle, v, ops, hprogram, hlen⟩ <;> rw [hlen]
  · exact ⟨id, .inl rfl⟩
  · exact ⟨fun _ => Nat.zero_le _, .inr (.inl ⟨rfl, hturn⟩)⟩
  · have hrange := s.setLen_le v
    exact ⟨fun _ => hrange, .inr (.inr ⟨hturn, hidle, v, ops, hprogram, hrange, fun hv => by rw [State.setLen_of_le hv]⟩)⟩

/-- Settles O43: only WBUF, the finalisation step and reset write BUF. -/
theorem bufferChangesOnlyByItsOwner : Obligations.BufferChangesOnlyByItsOwner := by
  unfold Obligations.BufferChangesOnlyByItsOwner
  intro s t hstep
  rcases step_cases hstep with ⟨-, -, rfl⟩ | ⟨hturn, op, ops, hprogram, hop⟩ | ⟨hturn, rfl⟩ | ⟨hturn, rfl⟩
  · exact .inl fun _ => ⟨rfl, rfl⟩
  · rcases hostOp_cases hop with rfl | ⟨i, b, rfl, hi, hidle, rfl⟩ | ⟨_, -, -, rfl⟩ | ⟨_, _, -, -, -, -, rfl⟩ | ⟨_, rfl⟩ |
      ⟨-, -, rfl⟩ | ⟨-, -, rfl⟩
    case inr.inl =>
      exact .inr (.inl ⟨hturn, hidle, i, b, ops, hprogram, hi, Memory.read_write_same s.buf i b,
        s.storeByte_valid_same i b, fun a ha => ⟨Memory.read_write_other s.buf i a b ha, s.storeByte_valid_other b ha⟩⟩)
    all_goals exact .inl fun _ => ⟨rfl, rfl⟩
  · rcases State.engineStep_cases { s with schedule := s.schedule.tail } with ⟨-, -, he⟩ | ⟨hbusy, hu, he⟩ | ⟨-, he⟩ <;>
      rw [he]
    · exact .inl fun _ => ⟨rfl, rfl⟩
    · exact .inr (.inr ⟨State.finalise_valid _, .inr ⟨hturn, hbusy, hu⟩⟩)
    · exact .inl fun _ => ⟨rfl, rfl⟩
  · exact .inr (.inr ⟨State.resetBlock_valid _, .inl hturn⟩)

/-! ### The sums: reduction, closed form, and the bytes they are made of -/

/-- A number below `2·M` is reduced by at most one subtraction (R76). -/
theorem mod_eq_conditional_sub {m x : Nat} (hx : x < 2 * m) : x % m = if m ≤ x then x - m else x := by
  split
  · rw [Nat.mod_eq_sub_mod ‹_›, Nat.mod_eq_of_lt (by omega)]
  · exact Nat.mod_eq_of_lt (by omega)

/-- UB bits above M: the widths of R76 as multiples of the modulus. -/
theorem two_pow_unitBits_succ (k : Kind) : 2 ^ (k.unitBits + 1) = 2 * k.modulus + 2 := by cases k <;> rfl

theorem State.unit_le (s : State) (k : Nat) : s.unit k ≤ s.kindr.modulus := Nat.le_sub_one_of_lt (s.unit_lt k)

/-- Settles O37: both sums before reduction are below `2·M`, as the sums are below M and a unit is at most M. -/
theorem reductionIsOneConditionalSubtraction : Obligations.ReductionIsOneConditionalSubtraction := by
  unfold Obligations.ReductionIsOneConditionalSubtraction
  intro s k hinv
  have h1 := hinv.sum1_range
  have h2 := hinv.sum2_range
  have hu := s.unit_le k
  have hx : (s.sum1.toNat + s.unit k) % s.kindr.modulus < s.kindr.modulus := Nat.mod_lt _ s.kindr.modulus_pos
  rw [two_pow_unitBits_succ]
  exact ⟨by omega, by omega, mod_eq_conditional_sub (by omega), mod_eq_conditional_sub (by omega), hx,
    Nat.mod_lt _ s.kindr.modulus_pos⟩

/-- One more unit raises the weight of every unit before it by 1, and its own from 0 to 1 (R82). -/
theorem sum_weighted_succ (f : Nat → Nat) (k : Nat) :
    ∑ j ∈ Finset.range (k + 1), (k + 1 - j) * f j =
      (∑ j ∈ Finset.range k, (k - j) * f j) + ∑ j ∈ Finset.range (k + 1), f j := by
  have hlast : ∑ j ∈ Finset.range k, (k - j) * f j = ∑ j ∈ Finset.range (k + 1), (k - j) * f j := by
    rw [Finset.sum_range_succ, Nat.sub_self, Nat.zero_mul, Nat.add_zero]
  rw [hlast, ← Finset.sum_add_distrib]
  refine Finset.sum_congr rfl fun j hj => ?_
  have hj : j ≤ k := Nat.lt_succ_iff.1 (Finset.mem_range.1 hj)
  rw [Nat.succ_sub hj, Nat.succ_mul]

/-- The closed form of the two running sums (R82). -/
theorem sums_map_range (m : Nat) (f : Nat → Nat) (k : Nat) :
    Reference.sums m ((List.range k).map f) =
      ((∑ j ∈ Finset.range k, f j) % m, (∑ j ∈ Finset.range k, (k - j) * f j) % m) := by
  induction k with
  | zero => simp
  | succ k ih =>
    have hfirst : ((∑ j ∈ Finset.range k, f j) % m + f k) % m = (∑ j ∈ Finset.range (k + 1), f j) % m := by
      rw [Nat.mod_add_mod, Finset.sum_range_succ]
    rw [List.range_succ, List.map_append, List.map_singleton, Reference.sums_snoc, ih, hfirst, sum_weighted_succ,
      ← Nat.add_mod]

/-- Settles O15: the sums of the units consumed are the source's, which have the closed form. -/
theorem sumsHaveTheClosedForm : Obligations.SumsHaveTheClosedForm := by
  unfold Obligations.SumsHaveTheClosedForm
  intro s i k hidle hloaded hk
  refine ⟨s.accept i.kind, exec_accepts i hidle hloaded, ?_⟩
  rw [State.engineSteps_eq_consumed (s.accept_busy i.kind) (s.accept_consumed_zero i.kind) hk]
  have hsums := (State.consumed_sums (s.accept i.kind) k).trans (sums_map_range _ _ k)
  exact ⟨rfl, Prod.mk.inj hsums⟩

/-- The units' positions, one unit after the other, are all the positions in order (R35, R98). -/
theorem flatMap_unitAddresses (wb n : Nat) : (List.range n).flatMap (unitAddresses wb) = List.range (n * wb) := by
  induction n with
  | zero => simp
  | succ n ih =>
    rw [List.range_succ, List.flatMap_append, ih, List.flatMap_singleton, unitAddresses, Nat.succ_mul, List.range_add]

theorem filter_lt_range (len n : Nat) : (List.range n).filter (fun a => decide (a < len)) = List.range (min len n) := by
  rw [← List.Ico.zero_bot, ← List.Ico.zero_bot, List.Ico.filter_lt, Nat.min_comm]

/-- Settles O27: the positions in order, cut off at LEN; the unit step's unit is the assembly of its own positions. -/
theorem engineReadsEachByteOnceInOrder : Obligations.EngineReadsEachByteOnceInOrder := by
  unfold Obligations.EngineReadsEachByteOnceInOrder
  refine ⟨fun c k len => ?_, fun s hbusy hu => ?_, fun s => State.engineStep_not_busy⟩
  · rw [flatMap_unitAddresses, filter_lt_range]
  · rw [State.engineStep_unit hbusy hu]
    exact ⟨rfl, rfl⟩

/-! ### A calculation's outcome -/

namespace State

/-- The source's check value is made of the sums of the hardware's units (R61, R70 to R74). -/
theorem checksum_eq_sumsAfter (s : State) :
    Reference.checksum s.cfg s.kindr s.byteBuffer =
      ((s.sumsAfter s.unitCount).2 <<< s.kindr.unitBits) ||| (s.sumsAfter s.unitCount).1 := by
  have hunits : Reference.units s.cfg s.kindr s.byteBuffer = (List.range s.unitCount).map s.unit :=
    (unitValues_eq_units s.cfg s.kindr s.len s.buf).symm
  rw [Reference.checksum, hunits, sumsAfter]

theorem checksum_lt (s : State) : Reference.checksum s.cfg s.kindr s.byteBuffer < 2 ^ s.kindr.checkBits := by
  obtain ⟨h1, h2⟩ := s.sumsAfter_lt s.unitCount
  rw [checksum_eq_sumsAfter]
  exact checkValue_lt h1 h2

/-- The block after the calculation of `s`: what the host finds in STATUS and RESULT. -/
def Finished (s u : State) : Prop :=
  u.busy = false ∧ u.done = true ∧ u.rkind = s.kindr ∧
    u.result = BitVec.ofNat 64 (Reference.checksum s.cfg s.kindr s.byteBuffer)

/-- Finalising the sums of all units delivers the source's check value (R94). -/
theorem finished_finalise_consumed (s : State) : s.Finished (s.consumed s.unitCount).finalise := by
  obtain ⟨h1, h2⟩ := s.sumsAfter_lt s.unitCount
  have hm := s.kindr.modulus_le
  refine ⟨rfl, rfl, rfl, ?_⟩
  rw [checksum_eq_sumsAfter]
  exact checkWord_ofNat s.kindr (by omega) (by omega)

/-- In a running calculation the units consumed are those UCNT counts (R14, R73). -/
theorem Inv.consumed_ucnt {s : State} (h : s.Inv) (hbusy : s.busy = true) : s.consumed s.ucnt = s := by
  have hsums := h.run_sums hbusy
  simp [consumed, ← hsums]

end State

/-- Settles O13: from its acceptance a calculation consumes all its units and is finalised. -/
theorem commandsComputeTheSourceChecksum : Obligations.CommandsComputeTheSourceChecksum := by
  unfold Obligations.CommandsComputeTheSourceChecksum
  intro s i hidle hloaded
  refine ⟨s.accept i.kind, exec_accepts i hidle hloaded, ?_⟩
  have hsteps : (s.accept i.kind).engineSteps (nunits s.cfg s.len i.kind.unitBytes + 1) = _ :=
    State.engineSteps_eq_finalise (s.accept_busy i.kind) (s.accept_consumed_zero i.kind)
  rw [hsteps]
  obtain ⟨hbusy, hdone, hrkind, hresult⟩ := (s.accept i.kind).finished_finalise_consumed
  have hlt : Reference.checksum s.cfg i.kind s.byteBuffer < 2 ^ i.kind.checkBits := (s.accept i.kind).checksum_lt
  have hwide : 2 ^ i.kind.checkBits ≤ 2 ^ 64 := Nat.pow_le_pow_right (by decide) (by cases i <;> decide)
  have hvalue : (BitVec.ofNat 64 (Reference.checksum s.cfg i.kind s.byteBuffer)).toNat =
      Reference.checksum s.cfg i.kind s.byteBuffer := Nat.mod_eq_of_lt (hlt.trans_le hwide)
  exact ⟨hbusy, hdone, hrkind, hresult ▸ hvalue, hresult ▸ hvalue.symm ▸ hlt⟩

/-! ### The same calculation in two blocks (R80) -/

namespace State

/-- BUSY, UCNT and NUNITS decide which step the engine takes (R93 to R95). -/
theorem engineStep_cases_of_eq {s s' : State} (hbusy : s'.busy = s.busy) (hucnt : s'.ucnt = s.ucnt)
    (hcount : s'.unitCount = s.unitCount) :
    (s.engineStep = s.unitStep ∧ s'.engineStep = s'.unitStep) ∨
    (s.engineStep = s.finalise ∧ s'.engineStep = s'.finalise) ∨ (s.engineStep = s ∧ s'.engineStep = s') := by
  rcases s.engineStep_cases with ⟨hb, hu, he⟩ | ⟨hb, hu, he⟩ | ⟨hb | hu, he⟩
  · exact .inl ⟨he, engineStep_unit (hbusy.trans hb) (by rwa [hucnt, hcount])⟩
  · exact .inr (.inl ⟨he, engineStep_finalise (hbusy.trans hb) (by rwa [hucnt, hcount])⟩)
  · exact .inr (.inr ⟨he, engineStep_not_busy (hbusy.trans hb)⟩)
  · exact .inr (.inr ⟨he, engineStep_beyond (by rwa [hucnt, hcount])⟩)

/-- Two blocks whose calculations read the same bytes and have come equally far, and whose results, where there are any,
are the same. -/
structure SameCalculation (s s' : State) : Prop where
  cfg : s'.cfg = s.cfg
  len : s'.len = s.len
  kindr : s'.kindr = s.kindr
  sum1 : s'.sum1 = s.sum1
  sum2 : s'.sum2 = s.sum2
  ucnt : s'.ucnt = s.ucnt
  busy : s'.busy = s.busy
  done : s'.done = s.done
  bytes : ∀ j < s.len, s.buf.read? j = s'.buf.read? j
  result : s.done = true → s'.result = s.result ∧ s'.rkind = s.rkind

namespace SameCalculation
variable {s s' : State} (h : SameCalculation s s')
include h

theorem unit (k : Nat) : s'.unit k = s.unit k := by
  rw [State.unit, State.unit, h.cfg, h.kindr, h.len]
  exact (unitValue_congr h.bytes _ _ k).symm

theorem unitCount : s'.unitCount = s.unitCount := by
  rw [State.unitCount, State.unitCount, h.cfg, h.kindr, h.len]

theorem unitStep : SameCalculation s.unitStep s'.unitStep :=
  { h with
    sum1 := by simp only [unitStep_sum1, h.kindr, h.sum1, h.sum2, h.ucnt, h.unit]
    sum2 := by simp only [unitStep_sum2, h.kindr, h.sum1, h.sum2, h.ucnt, h.unit]
    ucnt := congrArg (· + 1) h.ucnt }

theorem finalise : SameCalculation s.finalise s'.finalise :=
  { h with
    busy := rfl
    done := rfl
    bytes := fun _ _ => rfl
    result := fun _ => ⟨by simp only [finalise_result, h.kindr, h.sum1, h.sum2], h.kindr⟩ }

/-- The engine takes the same step in both. -/
theorem engineStep : SameCalculation s.engineStep s'.engineStep := by
  rcases engineStep_cases_of_eq h.busy h.ucnt h.unitCount with ⟨he, he'⟩ | ⟨he, he'⟩ | ⟨he, he'⟩ <;> rw [he, he']
  · exact h.unitStep
  · exact h.finalise
  · exact h

theorem engineSteps (k : Nat) : SameCalculation (s.engineSteps k) (s'.engineSteps k) := by
  induction k generalizing s s' with
  | zero => exact h
  | succ k ih => exact ih h.engineStep

end SameCalculation

/-- Acceptance forgets all that the earlier calculations left (R72, R89). -/
theorem sameCalculation_accept {s s' : State} (hcfg : s.cfg = s'.cfg) (hlen : s.len = s'.len)
    (hbytes : ∀ j < s.len, s.buf.read? j = s'.buf.read? j) (k : Kind) : SameCalculation (s.accept k) (s'.accept k) where
  cfg := hcfg.symm
  len := hlen.symm
  kindr := rfl
  sum1 := rfl
  sum2 := rfl
  ucnt := rfl
  busy := rfl
  done := rfl
  bytes := hbytes
  result hdone := absurd hdone Bool.false_ne_true

end State

/-- Settles O14: acceptance starts the same calculation in both blocks, and the engine keeps it the same. -/
theorem resultDependsOnTheBufferAlone : Obligations.ResultDependsOnTheBufferAlone := by
  unfold Obligations.ResultDependsOnTheBufferAlone
  intro s s' i hidle hidle' hcfg hlen hloaded hbytes
  have hloaded' : ∀ j < s'.len, s'.valid j = true := by
    intro j hj
    rw [← hlen] at hj
    rw [← hloaded j hj, State.valid, State.valid, Memory.valid, Memory.valid, hbytes j hj]
  refine ⟨_, _, exec_accepts i hidle hloaded, exec_accepts i hidle' hloaded', fun k => ?_⟩
  have h := (State.sameCalculation_accept hcfg hlen hbytes i.kind).engineSteps k
  refine ⟨h.busy.symm, h.done.symm, fun hdone => ?_⟩
  obtain ⟨hresult, hrkind⟩ := h.result hdone
  exact ⟨hresult.symm, hrkind.symm⟩

/-! ### A calculation interleaved with the host (R97, R115) -/

/-- A run of one more step is that step and the run from there. -/
theorem run_succ_split {k : Nat} {s u : State} (h : run (k + 1) s = .next u) :
    ∃ t, step s = .next t ∧ run k t = .next u := by
  rw [run_succ] at h
  cases hs : step s with
  | next t => rw [hs] at h; exact ⟨t, rfl, h⟩
  | fault f => cases f
  | refused r => rw [hs] at h; cases h

/-- While a calculation runs, a turn of the host reaches the host's record alone. -/
theorem hostTurn_busy_frame {s w t : State} (hbusy : s.busy = true) (h : hostTurn (s.withRecord w) = .next t) :
    ∃ w', t = s.withRecord w' ∧ w'.schedule = w.schedule := by
  cases hp : w.program with
  | nil =>
    cases (hostTurn_nil (s := s.withRecord w) hp).symm.trans h
    exact ⟨w, rfl, rfl⟩
  | cons op ops =>
    have hop := (hostTurn_cons (s := s.withRecord w) hp).symm.trans h
    exact ⟨{ w with program := t.program, replies := t.replies, draws := t.draws },
      hostOp_busy_frame (s := s.withRecord { w with program := ops }) hbusy hop, rfl⟩

/-- A step of a running calculation is a turn of the engine, or does not touch the block. -/
theorem step_busy {s w t : State} (hbusy : s.busy = true) {x : Turn} (hx : x ≠ .reset)
    (hturn : (s.withRecord w).nextTurn = x) (hstep : step (s.withRecord w) = .next t) :
    ∃ w', t = (s.engineSteps ([x].count .engine)).withRecord w' ∧ w'.schedule = w.schedule.tail := by
  cases x with
  | reset => exact absurd rfl hx
  | host =>
    rw [step_hostTurn hturn] at hstep
    exact hostTurn_busy_frame (w := { w with schedule := w.schedule.tail }) hbusy hstep
  | engine =>
    rw [step_engine hturn] at hstep
    cases hstep
    exact ⟨{ w with schedule := w.schedule.tail }, s.withRecord_engineStep { w with schedule := w.schedule.tail }, rfl⟩

/-- As long as the engine alone would keep the block busy, turns of the host between its own change nothing for it. -/
theorem run_busy {turns rest : List Turn} (hturns : ∀ x ∈ turns, x ≠ .reset) {s w u : State}
    (hschedule : w.schedule = turns ++ rest) (hbusy : ∀ j ≤ turns.count .engine, (s.engineSteps j).busy = true)
    (hrun : run turns.length (s.withRecord w) = .next u) :
    ∃ w', u = (s.engineSteps (turns.count .engine)).withRecord w' ∧ w'.schedule = rest := by
  induction turns generalizing s w with
  | nil => cases hrun; exact ⟨w, rfl, hschedule⟩
  | cons x turns ih =>
    obtain ⟨hx, hturns⟩ := List.forall_mem_cons.1 hturns
    obtain ⟨t, hstep, hrun⟩ := run_succ_split hrun
    obtain ⟨w', rfl, hw'⟩ := step_busy (hbusy 0 (Nat.zero_le _)) hx (State.nextTurn_cons hschedule) hstep
    rw [hschedule] at hw'
    have hcount : (x :: turns).count .engine = [x].count .engine + turns.count .engine :=
      List.count_append (l₁ := [x]) (l₂ := turns)
    rw [hcount, State.engineSteps_add]
    refine ih hturns hw' (fun j hj => ?_) hrun
    rw [← State.engineSteps_add]
    exact hbusy _ (hcount ▸ Nat.add_le_add_left hj _)

/-- Settles O46: the turns of the engine take the calculation along as they would alone, and the last of them finalises
it. -/
theorem interleavingDoesNotMatter : Obligations.InterleavingDoesNotMatter := by
  unfold Obligations.InterleavingDoesNotMatter
  intro s t u i turns rest hidle hloaded hexec hturns hrun
  cases (exec_accepts i hidle hloaded).symm.trans hexec
  have hconsumed : ∀ j ≤ nunits s.cfg s.len i.kind.unitBytes,
      (s.accept i.kind).engineSteps j = (s.accept i.kind).consumed j := fun j =>
    State.engineSteps_eq_consumed (s.accept_busy i.kind) (s.accept_consumed_zero i.kind)
  have hbusy : ∀ j ≤ nunits s.cfg s.len i.kind.unitBytes, ((s.accept i.kind).engineSteps j).busy = true :=
    fun j hj => by rw [hconsumed j hj]; rfl
  refine ⟨fun hcount => ?_, fun hcount hlast => ?_⟩
  · obtain ⟨w, rfl, -⟩ := run_busy (w := { s.accept i.kind with schedule := turns ++ rest }) hturns rfl
      (fun j hj => hbusy j (hj.trans hcount)) hrun
    rw [hconsumed _ hcount]
    exact ⟨rfl, rfl, rfl, rfl, rfl, rfl, rfl⟩
  · obtain ⟨before, rfl⟩ := List.getLast?_eq_some_iff.1 hlast
    have hbefore : before.count .engine = nunits s.cfg s.len i.kind.unitBytes := by
      simpa [List.count_append] using hcount
    rw [List.length_append] at hrun
    obtain ⟨v, hrun, hfinal⟩ := run_split hrun
    obtain ⟨w, rfl, hw⟩ := run_busy (w := { s.accept i.kind with schedule := before ++ [.engine] ++ rest })
      (fun x hx => hturns x (List.mem_append_left _ hx)) (List.append_assoc _ _ _)
      (fun j hj => hbusy j (hbefore ▸ hj)) hrun
    obtain ⟨v, hstep, hv⟩ := run_succ_split hfinal
    cases hv
    obtain ⟨w', rfl, -⟩ := step_busy (hbusy _ hbefore.le) (by decide) (State.nextTurn_cons hw) hstep
    rw [← State.engineSteps_add, hbefore]
    have hsteps : (s.accept i.kind).engineSteps (nunits s.cfg s.len i.kind.unitBytes + 1) = _ :=
      State.engineSteps_eq_finalise (s.accept_busy i.kind) (s.accept_consumed_zero i.kind)
    have hfinished := (s.accept i.kind).finished_finalise_consumed
    rw [← hsteps] at hfinished
    exact hfinished

/-! ### Every calculation ends (R81, R96, R120) -/

/-- The turns to come hold no reset event. -/
def NoReset (turns : List Turn) : Prop := ∀ x ∈ turns, x ≠ .reset

theorem NoReset.tail {turns : List Turn} (h : NoReset turns) : NoReset turns.tail :=
  fun x hx => h x (List.mem_of_mem_tail hx)

/-- While BUSY = 1 the next turn is the engine's, or the host's because the schedule says so (log 3). -/
theorem nextTurn_of_busy {s : State} (hbusy : s.busy = true) (hturns : NoReset s.schedule) :
    s.nextTurn = .engine ∨ (s.nextTurn = .host ∧ s.schedule ≠ []) := by
  cases hs : s.schedule with
  | nil => rw [State.nextTurn_nil hs, if_pos hbusy]; exact .inl rfl
  | cons x rest =>
    rw [State.nextTurn_cons hs]
    cases x with
    | host => exact .inr ⟨rfl, List.cons_ne_nil _ _⟩
    | engine => exact .inl rfl
    | reset => exact absurd rfl (hturns .reset (hs ▸ List.mem_cons_self))

/-- A host whose operations to come meet `Q` always has its turns while a calculation runs, and keeps meeting `Q`. -/
def HostGoesOn (c : Config) (Q : List HostOp → Prop) : Prop :=
  ∀ s : State, s.cfg = c → s.busy = true → s.done = false → Q s.program → ∃ t, hostTurn s = .next t ∧ Q t.program

/-- How many turns a calculation can take: those that are scheduled, and the engine's own after them. -/
def State.turnsLeft (s : State) : Nat := s.schedule.length + (s.unitCount - s.ucnt)

/-- One step of a running calculation: it finishes the calculation, or leaves it running with fewer turns to go. -/
theorem running_step {c : Config} {Q : List HostOp → Prop} (hhost : HostGoesOn c Q) {s : State} (hinv : s.Inv)
    (hcfg : s.cfg = c) (hbusy : s.busy = true) (hturns : NoReset s.schedule) (hQ : Q s.program) :
    ∃ t, step s = .next t ∧ NoReset t.schedule ∧ Q t.program ∧
      (s.Finished t ∨
        (t.cfg = c ∧ t.busy = true ∧ (∀ u, t.Finished u → s.Finished u) ∧ t.turnsLeft < s.turnsLeft)) := by
  rcases nextTurn_of_busy hbusy hturns with hturn | ⟨hturn, hne⟩
  · refine ⟨s.engineStep.withRecord { s with schedule := s.schedule.tail }, ?_, hturns.tail, hQ, ?_⟩
    · rw [step_engine hturn, ← State.withRecord_engineStep]
      rfl
    rcases Nat.lt_or_eq_of_le (hinv.run_ucnt hbusy) with hu | hu
    · rw [State.engineStep_unit hbusy hu]
      refine .inr ⟨hcfg, hbusy, fun _ => id, ?_⟩
      have htail : s.schedule.tail.length ≤ s.schedule.length := by simp
      exact Nat.add_lt_add_of_le_of_lt htail (Nat.sub_lt_sub_left hu (Nat.lt_succ_self _))
    · rw [State.engineStep_finalise hbusy hu]
      have hfinished := s.finished_finalise_consumed
      rw [← hu, hinv.consumed_ucnt hbusy] at hfinished
      exact .inl hfinished
  · have hdone : s.done = false := Bool.eq_false_iff.2 fun hdone => hinv.flags ⟨hbusy, hdone⟩
    obtain ⟨t, ht, hQt⟩ := hhost { s with schedule := s.schedule.tail } hcfg hbusy hdone hQ
    refine ⟨t, (step_hostTurn hturn).trans ht, ?_⟩
    obtain ⟨w, rfl, hw⟩ := hostTurn_busy_frame (w := { s with schedule := s.schedule.tail }) hbusy ht
    have hfewer : w.schedule.length < s.schedule.length := by
      rw [hw, List.length_tail]
      exact Nat.sub_one_lt (by simpa using hne)
    have hturns' : NoReset w.schedule := hw ▸ hturns.tail
    exact ⟨hturns', hQt, .inr ⟨hcfg, hbusy, fun _ => id, Nat.add_lt_add_right hfewer _⟩⟩

/-- A running calculation is finished within the turns it can take, whatever the host does in its own, provided only that it
goes on. -/
theorem calculation_ends {c : Config} {Q : List HostOp → Prop} (hhost : HostGoesOn c Q) {n : Nat} {s : State}
    (hinv : s.Inv) (hcfg : s.cfg = c) (hbusy : s.busy = true) (hturns : NoReset s.schedule) (hQ : Q s.program)
    (hn : s.turnsLeft < n) :
    ∃ k u, k ≤ n ∧ run k s = .next u ∧ s.Finished u ∧ NoReset u.schedule ∧ Q u.program := by
  induction n generalizing s with
  | zero => exact absurd hn (Nat.not_lt_zero _)
  | succ n ih =>
    obtain ⟨t, hstep, hturns', hQt, hfinished | ⟨hcfg', hbusy', hsame, hfewer⟩⟩ :=
      running_step hhost hinv hcfg hbusy hturns hQ
    · exact ⟨1, t, by omega, run_succ_next 0 hstep, hfinished, hturns', hQt⟩
    · obtain ⟨k, u, hk, hrun, hfinished, hu⟩ := ih (hinv.step hstep) hcfg' hbusy' hturns' hQt (by omega)
      exact ⟨k + 1, u, Nat.succ_le_succ hk, (run_succ_next k hstep).trans hrun, hsame u hfinished, hu⟩

/-- An operation of the interface is not refused while a calculation runs (R104). -/
theorem hostOp_goes_on_busy {op : HostOp} {s : State} (hbusy : s.busy = true) (hwf : op.wellFormed s.cfg = true) :
    ∃ t, hostOp op s = .next t := by
  cases hop : hostOp op s with
  | next t => exact ⟨t, rfl⟩
  | fault f => cases f
  | refused r =>
    rcases hostOp_refused_iff.1 hop with ⟨-, hidle, -⟩ | ⟨-, hidle, -⟩ | ⟨-, i, b, rfl, hi⟩ | ⟨-, index, hindex, hreg⟩
    · simp [hbusy] at hidle
    · simp [hbusy] at hidle
    · exact absurd (of_decide_eq_true hwf) (Nat.not_lt.2 hi)
    · obtain ⟨n, rfl⟩ : ∃ n, index = n + 4 := ⟨index - 4, by omega⟩
      have hbig : ¬ n + 4 ≤ 3 := by omega
      rcases hreg with rfl | ⟨v, rfl⟩ <;> exact absurd (of_decide_eq_true (p := n + 4 ≤ 3) hwf) hbig

/-- Only WAIT puts an operation back on the program, itself (R55). -/
theorem hostOp_program {op : HostOp} {s t : State} (hop : hostOp op s = .next t) :
    t.program = s.program ∨ t.program = op :: s.program := by
  rcases hostOp_cases hop with rfl | ⟨_, _, -, -, -, rfl⟩ | ⟨_, -, -, rfl⟩ | ⟨_, _, -, -, -, -, rfl⟩ | ⟨_, rfl⟩ |
    ⟨-, -, rfl⟩ | ⟨rfl, -, rfl⟩
  case inr.inr.inr.inr.inr.inr => exact .inr rfl
  all_goals exact .inl rfl

/-- A host that keeps to its interface goes on. -/
theorem hostGoesOn_wellFormed (c : Config) : HostGoesOn c fun p => ∀ op ∈ p, op.wellFormed c = true := by
  intro s hcfg hbusy hdone hwf
  cases hp : s.program with
  | nil => exact ⟨s, hostTurn_nil hp, hwf⟩
  | cons op ops =>
    rw [hp] at hwf
    obtain ⟨hop, hops⟩ := List.forall_mem_cons.1 hwf
    obtain ⟨t, ht⟩ := hostOp_goes_on_busy (s := { s with program := ops }) hbusy (hcfg ▸ hop)
    refine ⟨t, (hostTurn_cons hp).trans ht, ?_⟩
    rcases hostOp_program ht with hprogram | hprogram <;> rw [hprogram]
    · exact hops
    · exact hwf

/-- Settles O47: the turns to go bound the steps, and a host within its interface goes on. -/
theorem everyCalculationEnds : Obligations.EveryCalculationEnds := by
  unfold Obligations.EveryCalculationEnds
  intro s hinv hbusy hturns hwf
  obtain ⟨k, u, hk, hrun, hfinished, -⟩ :=
    calculation_ends (hostGoesOn_wellFormed s.cfg) hinv rfl hbusy hturns hwf (Nat.lt_succ_self _)
  exact ⟨k, u, hk, hrun, hfinished⟩

/-! ### The documented procedure (R55, R114) -/

/-- Some run leads from `s` to `t`. -/
def Reaches (s t : State) : Prop := ∃ k, run k s = .next t

theorem Reaches.refl (s : State) : Reaches s s := ⟨0, rfl⟩

theorem Reaches.trans {s t u : State} : Reaches s t → Reaches t u → Reaches s u
  | ⟨j, hj⟩, ⟨k, hk⟩ => ⟨j + k, (run_add hj).trans hk⟩

theorem Reaches.of_step {s t : State} (h : step s = .next t) : Reaches s t := ⟨1, run_succ_next 0 h⟩

theorem State.Inv.reaches {s t : State} (h : s.Inv) : Reaches s t → t.Inv
  | ⟨_, hk⟩ => run_induction (fun _ _ => State.Inv.step) h hk

/-- `s` with the operations `p` still to be performed and the turns `q` still to come. -/
def State.pending (s : State) (p : List HostOp) (q : List Turn) : State := { s with program := p, schedule := q }

/-- While BUSY = 0 the engine's turns pass, and then the host performs its next operation. -/
theorem reaches_hostOp {s : State} (hidle : s.busy = false) {turns : List Turn} (hturns : NoReset turns) (op : HostOp)
    (ops : List HostOp) :
    ∃ q, NoReset q ∧ ∀ t, hostOp op (s.pending ops q) = .next t → Reaches (s.pending (op :: ops) turns) t := by
  induction turns with
  | nil =>
    have hturn : (s.pending (op :: ops) []).nextTurn = .host := by
      rw [State.nextTurn_nil rfl]
      exact if_neg (Bool.eq_false_iff.1 hidle)
    exact ⟨[], hturns, fun t ht => .of_step ((step_host hturn rfl).trans ht)⟩
  | cons x rest ih =>
    cases x with
    | host => exact ⟨rest, hturns.tail, fun t ht => .of_step ((step_host rfl rfl).trans ht)⟩
    | reset => exact absurd rfl (hturns .reset List.mem_cons_self)
    | engine =>
      obtain ⟨q, hq, hreach⟩ := ih hturns.tail
      have hpass : step (s.pending (op :: ops) (.engine :: rest)) = .next (s.pending (op :: ops) rest) :=
        (step_engine rfl).trans (congrArg _ (State.engineStep_not_busy (s := s.pending (op :: ops) rest) hidle))
      exact ⟨q, hq, fun t ht => (Reaches.of_step hpass).trans (hreach t ht)⟩

/-- The bytes `bs` written to the cells from `i` on. -/
def Memory.writes (m : Memory) : Nat → List Byte → Memory
  | _, [] => m
  | i, b :: bs => Memory.writes (m.write i b) (i + 1) bs

theorem Memory.read_writes_of_lt (m : Memory) {i a : Nat} (bs : List Byte) (ha : a < i) :
    (m.writes i bs).read? a = m.read? a := by
  induction bs generalizing m i with
  | nil => rfl
  | cons b bs ih => rw [writes, ih (m.write i b) (Nat.lt_succ_of_lt ha), read_write_other m i a b ha.ne]

theorem Memory.read_writes (m : Memory) (i : Nat) {j : Nat} {bs : List Byte} (hj : j < bs.length) :
    (m.writes i bs).read? (i + j) = some bs[j] := by
  induction bs generalizing m i j with
  | nil => exact absurd hj (Nat.not_lt_zero j)
  | cons b bs ih =>
    rw [writes]
    cases j with
    | zero => exact (read_writes_of_lt _ bs (Nat.lt_succ_self i)).trans (read_write_same m i b)
    | succ j =>
      rw [show i + (j + 1) = i + 1 + j by omega]
      exact ih (m.write i b) (i + 1) (Nat.lt_of_succ_lt_succ hj)

/-- What the WBUFs of the bytes `bs` leave in the block, from cell `i` on. -/
def State.writeBytes (s : State) (i : Nat) (bs : List Byte) : State := { s with buf := s.buf.writes i bs }

/-- What LOAD leaves in the block (R55). -/
def State.loadBytes (s : State) (bytes : List Byte) : State :=
  { s.writeBytes 0 bytes with len := bytes.length }

/-- After LOAD the cells of the ByteBuffer are valid. -/
theorem State.loadBytes_valid (s : State) (bytes : List Byte) :
    ∀ j < (s.loadBytes bytes).len, (s.loadBytes bytes).valid j = true := by
  intro j hj
  have hread := s.buf.read_writes 0 (bs := bytes) hj
  rw [Nat.zero_add] at hread
  exact (Memory.valid_iff _ j).2 ⟨_, hread⟩

/-- After LOAD the ByteBuffer is the bytes loaded. -/
theorem State.loadBytes_byteBuffer (s : State) (bytes : List Byte) : (s.loadBytes bytes).byteBuffer = bytes := by
  refine List.ext_getElem (by simp [byteBuffer, loadBytes]) fun j _ hj => ?_
  have hread := s.buf.read_writes 0 hj
  rw [Nat.zero_add] at hread
  simp [byteBuffer, loadBytes, writeBytes, memRead, hread]

/-- The WBUFs of LOAD. -/
theorem reaches_wbufs {s : State} (hidle : s.busy = false) {turns : List Turn} (hturns : NoReset turns) {i : Nat}
    {bs : List Byte} (hfit : i + bs.length ≤ s.cfg.bufMax) (ops : List HostOp) :
    ∃ q, NoReset q ∧ Reaches (s.pending (HostOp.wbufs i bs ++ ops) turns) ((s.writeBytes i bs).pending ops q) := by
  induction bs generalizing s i turns with
  | nil => exact ⟨turns, hturns, .refl _⟩
  | cons b bs ih =>
    rw [List.length_cons] at hfit
    have hi : i < s.cfg.bufMax := by omega
    have hfit' : i + 1 + bs.length ≤ s.cfg.bufMax := by omega
    obtain ⟨q, hq, hstore⟩ := reaches_hostOp hidle hturns (.wbuf i b) (HostOp.wbufs (i + 1) bs ++ ops)
    obtain ⟨q', hq', hrest⟩ := ih (s := s.storeByte i b) hidle hq hfit'
    exact ⟨q', hq', (hstore _ (hostOp_wbuf_idle b hi hidle)).trans hrest⟩

/-- LOAD (R55). -/
theorem reaches_load {s : State} (hidle : s.busy = false) {turns : List Turn} (hturns : NoReset turns)
    {bytes : List Byte} (hfit : bytes.length ≤ s.cfg.bufMax) (ops : List HostOp) :
    ∃ q, NoReset q ∧ Reaches (s.pending (HostOp.load bytes ++ ops) turns) ((s.loadBytes bytes).pending ops q) := by
  obtain ⟨q, hq, hbytes⟩ := reaches_wbufs hidle hturns (i := 0) (by rwa [Nat.zero_add]) (.wlen bytes.length :: ops)
  obtain ⟨q', hq', hlen⟩ := reaches_hostOp (s := s.writeBytes 0 bytes) hidle hq (.wlen bytes.length) ops
  rw [HostOp.load, List.append_assoc]
  obtain ⟨hstored, -, -⟩ := writeLenStoresTheLength ((s.writeBytes 0 bytes).pending ops q') bytes.length hfit
  exact ⟨q', hq', hbytes.trans (hlen _ (hstored hidle))⟩

/-- A host that waits goes on waiting (R55). -/
theorem hostGoesOn_wait (c : Config) (ops : List HostOp) : HostGoesOn c fun p => p = .wait :: ops := by
  intro s _ _ hdone hprogram
  have hpoll := pollDone_not_done (s := { s with program := ops }) hdone
  exact ⟨_, (hostTurn_cons hprogram).trans (congrArg Host.Outcome.next hpoll), rfl⟩

/-- WAIT and RRESULT after a calculation: a STATUS with DONE = 1, and the result (R90, R91). -/
theorem reaches_result {s : State} (hidle : s.busy = false) (hdone : s.done = true) (hturns : NoReset s.schedule)
    (hprogram : s.program = [.wait, .rresult]) :
    ∃ u, Reaches s u ∧ u.program = [] ∧ u.replies = .result s.result :: .status s.statusWord :: s.replies := by
  obtain ⟨q, hq, hwait⟩ := reaches_hostOp hidle hturns .wait [.rresult]
  obtain ⟨q', -, hresult⟩ := reaches_hostOp (s := s.reply (.status s.statusWord)) hidle hq .rresult []
  have hpoll : hostOp .wait (s.pending [.rresult] q) = .next ((s.pending [.rresult] q).reply (.status s.statusWord)) :=
    congrArg Host.Outcome.next (pollDone_done hdone)
  have hreach := (hwait _ hpoll).trans (hresult _ (hostOp_rresult_done hdone))
  rw [← hprogram] at hreach
  exact ⟨_, hreach, rfl, rfl⟩

/-- Settles O50: LOAD, the acceptance, the calculation under a waiting host, and the two reads, one after the other. -/
theorem calcDeliversTheCheckValue : Obligations.CalcDeliversTheCheckValue := by
  unfold Obligations.CalcDeliversTheCheckValue
  intro s i bytes hinv hidle hturns hfit
  obtain ⟨q, hq, hload⟩ := reaches_load hidle hturns hfit [.command i, .wait, .rresult]
  obtain ⟨q', hq', hcommand⟩ := reaches_hostOp (s := s.loadBytes bytes) hidle hq (.command i) [.wait, .rresult]
  have haccept : hostOp (.command i) ((s.loadBytes bytes).pending [.wait, .rresult] q') = .next _ :=
    (hostOp_cmd_command _ (decode_encode i)).trans (exec_accepts i hidle (s.loadBytes_valid bytes))
  have hstarted := hload.trans (hcommand _ haccept)
  have hinv' := (hinv.withRecord (s.pending (HostOp.calc i bytes) s.schedule)).reaches hstarted
  obtain ⟨k, v, -, hrun, ⟨hbusy, hdone, hrkind, hresult⟩, hturns', hprogram⟩ :=
    calculation_ends (hostGoesOn_wait s.cfg [.rresult]) hinv' rfl rfl hq' rfl (Nat.lt_succ_self _)
  obtain ⟨u, hread, hend, hreplies⟩ := reaches_result hbusy hdone hturns' hprogram
  obtain ⟨n, hn⟩ := hstarted.trans (.trans ⟨k, hrun⟩ hread)
  have hvalue : v.result = BitVec.ofNat 64 (Reference.checksum s.cfg i.kind (s.loadBytes bytes).byteBuffer) := hresult
  rw [s.loadBytes_byteBuffer] at hvalue
  refine ⟨n, u, v.statusWord, v.replies, hn, hend, hvalue ▸ hreplies, (doneBit_statusWord v).trans hdone, ?_⟩
  exact (statusWord_rkind_field v).trans (congrArg Kind.code hrkind)

/-! ### What the host can tell (R26, R28, R100) -/

namespace State

/-- The host sees the same in both states and its operations meet the same conditions. RESULT counts under DONE = 1 alone, and
VALID under BUSY = 0 alone. -/
structure Alike (s s' : State) : Prop where
  cfg : s'.cfg = s.cfg
  busy : s'.busy = s.busy
  done : s'.done = s.done
  rkind : s'.rkind = s.rkind
  len : s'.len = s.len
  program : s'.program = s.program
  schedule : s'.schedule = s.schedule
  replies : s'.replies = s.replies
  draws : s'.draws = s.draws
  result : s.done = true → s'.result = s.result
  valid : s.busy = false → ∀ i, s'.valid i = s.valid i

/-- What an operation of the host can do to a state that looks like `s`: a function of the state, chosen by what the host
sees of `s`. -/
inductive HostUpdate (s : State) : (State → State) → Prop
  | keep : HostUpdate s id
  | storeByte (i : Nat) (b : Byte) (hidle : s.busy = false) : HostUpdate s (·.storeByte i b)
  | setLen (n : Nat) (hidle : s.busy = false) : HostUpdate s (·.setLen n)
  | accept (k : Kind) (hidle : s.busy = false) : HostUpdate s (·.accept k)
  | reply (r : Reply) : HostUpdate s (·.reply r)
  | replyFree : HostUpdate s (·.replyFree)
  | poll (r : Reply) : HostUpdate s fun u => { u.reply r with program := .wait :: u.program }

namespace Alike
variable {s s' : State} (h : s.Alike s')
include h

theorem statusWord : s'.statusWord = s.statusWord := by
  rw [State.statusWord, State.statusWord, h.rkind, h.done, h.busy]

theorem nextTurn : s'.nextTurn = s.nextTurn := by
  rw [State.nextTurn, State.nextTurn, h.schedule, h.busy]

theorem loaded (hidle : s.busy = false) : s'.loaded = s.loaded := by
  rw [State.loaded, State.loaded, h.len, funext (h.valid hidle)]

end Alike

/-- No update of the host tells the two states apart. -/
theorem HostUpdate.alike {s s' : State} {f : State → State} (hf : s.HostUpdate f) (h : s.Alike s') : (f s).Alike (f s') := by
  cases hf with
  | keep => exact h
  | storeByte i b hidle =>
    refine { h with valid := fun _ a => ?_ }
    have hvalid : s'.buf.valid a = s.buf.valid a := h.valid hidle a
    simp only [State.valid, storeByte_buf, Memory.valid_write, hvalid]
  | setLen n _ => exact { h with len := by rw [setLen_len, setLen_len, h.cfg] }
  | accept k _ =>
    exact { h with
      busy := rfl
      done := rfl
      result := fun hdone => absurd hdone Bool.false_ne_true
      valid := fun hidle => absurd hidle.symm Bool.false_ne_true }
  | reply r => exact { h with replies := congrArg (r :: ·) h.replies }
  | replyFree =>
    exact { h with
      replies := by rw [replyFree_replies, replyFree_replies, h.draws, h.replies]
      draws := congrArg (· + 1) h.draws }
  | poll r =>
    exact { h with
      program := congrArg (HostOp.wait :: ·) h.program
      replies := congrArg (r :: ·) h.replies }

/-- While BUSY = 1 the host does not reach the calculation (R16, R115). -/
theorem HostUpdate.frame {s : State} {f : State → State} (hf : s.HostUpdate f) (hbusy : s.busy = true) (u : State) :
    (f u).busy = u.busy ∧ (f u).kindr = u.kindr ∧ (f u).ucnt = u.ucnt := by
  cases hf with
  | storeByte _ _ hidle | setLen _ hidle | accept _ hidle => exact absurd hbusy (Bool.eq_false_iff.1 hidle)
  | _ => exact ⟨rfl, rfl, rfl⟩

end State

/-- CMD on two states that look alike. -/
theorem writeCtrl_alike {w : Byte} {s s' t : State} (h : s.Alike s') (hw : writeCtrl w s = .next t) :
    ∃ f, s.HostUpdate f ∧ t = f s ∧ writeCtrl w s' = .next (f s') := by
  cases hd : decode w with
  | command i =>
    rw [writeCtrl_command s hd, exec_eq_issue] at hw
    rw [writeCtrl_command s' hd, exec_eq_issue]
    rcases issue_cases hw with ⟨hbusy, rfl⟩ | ⟨hidle, hloaded, rfl⟩
    · exact ⟨id, .keep, rfl, issue_busy _ (h.busy.trans hbusy)⟩
    · exact ⟨_, .accept i.kind hidle, rfl, issue_loaded _ (h.busy.trans hidle) ((h.loaded hidle).trans hloaded)⟩
  | reserved why =>
    rw [← hostOp_cmd, hostOp_cmd_reserved _ hd] at hw ⊢
    cases hbusy : s.busy with
    | true =>
      rw [if_pos hbusy] at hw
      cases hw
      exact ⟨id, .keep, rfl, if_pos (h.busy.trans hbusy)⟩
    | false =>
      rw [if_neg (Bool.eq_false_iff.1 hbusy)] at hw
      cases hw

/-- A host operation does the same to two states that look alike. -/
theorem hostOp_alike {op : HostOp} {s s' t : State} (h : s.Alike s') (hop : hostOp op s = .next t) :
    ∃ f, s.HostUpdate f ∧ t = f s ∧ hostOp op s' = .next (f s') := by
  match op with
  | .wbuf i b =>
    obtain ⟨hi, rfl⟩ := writeBuffer_next hop
    rw [hostOp_wbuf b (h.cfg ▸ hi), h.busy]
    cases hbusy : s.busy with
    | true => exact ⟨id, .keep, rfl, rfl⟩
    | false => exact ⟨_, .storeByte i b hbusy, rfl, rfl⟩
  | .writeReg 0 v => exact writeCtrl_alike h hop
  | .writeReg 1 v =>
    cases hbusy : s.busy with
    | true =>
      cases (hostOp_wlen_busy v hbusy).symm.trans hop
      exact ⟨id, .keep, rfl, hostOp_wlen_busy v (h.busy.trans hbusy)⟩
    | false =>
      cases (hostOp_wlen_idle v hbusy).symm.trans hop
      exact ⟨_, .setLen v hbusy, rfl, hostOp_wlen_idle v (h.busy.trans hbusy)⟩
  | .writeReg 2 v | .writeReg 3 v => cases hop; exact ⟨id, .keep, rfl, rfl⟩
  | .writeReg (n + 4) v | .readReg (n + 4) => cases hop
  | .readReg 0 => cases hop; exact ⟨_, .reply _, rfl, rfl⟩
  | .readReg 1 => cases hop; exact ⟨_, .reply (.len s.len), rfl, by rw [← h.len]; rfl⟩
  | .readReg 2 => cases hop; exact ⟨_, .reply (.status s.statusWord), rfl, by rw [← h.statusWord]; rfl⟩
  | .readReg 3 =>
    cases hdone : s.done with
    | true =>
      cases (hostOp_rresult_done hdone).symm.trans hop
      exact ⟨_, .reply (.result s.result), rfl, h.result hdone ▸ hostOp_rresult_done (h.done.trans hdone)⟩
    | false =>
      cases (hostOp_rresult_not_done hdone).symm.trans hop
      exact ⟨_, .replyFree, rfl, hostOp_rresult_not_done (h.done.trans hdone)⟩
  | .wait =>
    cases hop
    rw [hostOp]
    cases hdone : s.done with
    | true =>
      rw [pollDone_done hdone, pollDone_done (h.done.trans hdone), h.statusWord]
      exact ⟨_, .reply _, rfl, rfl⟩
    | false =>
      rw [pollDone_not_done hdone, pollDone_not_done (h.done.trans hdone), h.statusWord]
      exact ⟨_, .poll _, rfl, rfl⟩

/-- A host operation is refused alike in two states that look alike: R104's conditions are on what the host sees. -/
theorem hostOp_refused_alike {op : HostOp} {s s' : State} {r : Refusal} (h : s.Alike s') (hop : hostOp op s = .refused r) :
    hostOp op s' = .refused r := by
  rw [hostOp_refused_iff, h.busy, h.len, h.cfg]
  rcases hostOp_refused_iff.1 hop with hreserved | ⟨hr, hidle, ⟨i, hi, hvalid⟩, hword⟩ | hrest
  · exact .inl hreserved
  · exact .inr (.inl ⟨hr, hidle, ⟨i, hi, (h.valid hidle i).trans hvalid⟩, hword⟩)
  · exact .inr (.inr hrest)

/-! ### Two runs side by side -/

/-- `R` relates states that look alike, and every step that leads to a `P`-state keeps it. -/
structure Simulation (P : State → Prop) (R : State → State → Prop) : Prop where
  alike {s s' : State} : R s s' → s.Alike s'
  pending {s s' : State} (p : List HostOp) (q : List Turn) : R s s' → R (s.pending p q) (s'.pending p q)
  host {s s' : State} {f : State → State} : R s s' → s.HostUpdate f → R (f s) (f s')
  engine {s s' : State} : R s s' → P s.engineStep → R s.engineStep s'.engineStep
  reset {s s' : State} : R s s' → P s.resetBlock → R s.resetBlock s'.resetBlock

/-- The step as a turn taken on the state with the turn off its list. -/
theorem step_eq_takeTurn (s : State) : step s = takeTurn s.nextTurn (s.pending s.program s.schedule.tail) := rfl

namespace Simulation
variable {P : State → Prop} {R : State → State → Prop} (sim : Simulation P R) {s s' : State}
include sim

theorem takeTurn_next {x : Turn} {t : State} (h : R s s') (hturn : takeTurn x s = .next t) (ht : P t) :
    ∃ t', takeTurn x s' = .next t' ∧ R t t' := by
  cases x with
  | engine => cases hturn; exact ⟨_, rfl, sim.engine h ht⟩
  | reset => cases hturn; exact ⟨_, rfl, sim.reset h ht⟩
  | host =>
    have hprogram := (sim.alike h).program
    cases hp : s.program with
    | nil =>
      cases (hostTurn_nil hp).symm.trans hturn
      exact ⟨s', hostTurn_nil (hprogram.trans hp), h⟩
    | cons op ops =>
      have hpending := sim.pending ops s.schedule h
      obtain ⟨f, hf, rfl, hop⟩ := hostOp_alike (sim.alike hpending) ((hostTurn_cons hp).symm.trans hturn)
      refine ⟨_, (hostTurn_cons (hprogram.trans hp)).trans ?_, sim.host hpending hf⟩
      rw [← hop, ← (sim.alike h).schedule]
      rfl

theorem takeTurn_refused {x : Turn} {r : Refusal} (h : R s s') (hturn : takeTurn x s = .refused r) :
    takeTurn x s' = .refused r := by
  cases x with
  | engine => cases hturn
  | reset => cases hturn
  | host =>
    have hprogram := (sim.alike h).program
    cases hp : s.program with
    | nil => cases (hostTurn_nil hp).symm.trans hturn
    | cons op ops =>
      have hpending := sim.alike (sim.pending ops s.schedule h)
      have hop := hostOp_refused_alike hpending ((hostTurn_cons hp).symm.trans hturn)
      refine (hostTurn_cons (hprogram.trans hp)).trans ?_
      rw [← hop, ← (sim.alike h).schedule]
      rfl

/-- Both states come to their turn in the same way. -/
theorem step_eq (h : R s s') : step s' = takeTurn s.nextTurn (s'.pending s.program s.schedule.tail) := by
  have hsame := sim.alike h
  rw [step_eq_takeTurn, hsame.nextTurn, hsame.program, hsame.schedule]

theorem step_next {t : State} (h : R s s') (hstep : step s = .next t) (ht : P t) : ∃ t', step s' = .next t' ∧ R t t' := by
  rw [sim.step_eq h]
  exact sim.takeTurn_next (sim.pending s.program s.schedule.tail h) hstep ht

theorem step_refused {r : Refusal} (h : R s s') (hstep : step s = .refused r) : step s' = .refused r := by
  rw [sim.step_eq h]
  exact sim.takeTurn_refused (sim.pending s.program s.schedule.tail h) hstep

theorem run_next {j : Nat} {u : State} (h : R s s') (hP : ∀ l ≤ j, ∀ v, run l s = .next v → P v)
    (hrun : run j s = .next u) : ∃ u', run j s' = .next u' ∧ R u u' := by
  induction j generalizing s s' with
  | zero => cases hrun; exact ⟨s', rfl, h⟩
  | succ j ih =>
    obtain ⟨t, hstep, hrun⟩ := run_succ_split hrun
    obtain ⟨t', hstep', ht⟩ := sim.step_next h hstep (hP 1 (by omega) t (run_succ_next 0 hstep))
    rw [run_succ_next j hstep']
    refine ih ht (fun l hl v hv => hP (l + 1) (Nat.succ_le_succ hl) v ?_) hrun
    rw [run_succ_next l hstep, hv]

theorem run_refused {j : Nat} {r : Refusal} (h : R s s') (hP : ∀ v, P v) (hrun : run j s = .refused r) :
    run j s' = .refused r := by
  induction j generalizing s s' with
  | zero => cases hrun
  | succ j ih =>
    cases hstep : step s with
    | next t =>
      obtain ⟨t', hstep', ht⟩ := sim.step_next h hstep (hP t)
      rw [run_succ_next j hstep] at hrun
      rw [run_succ_next j hstep', ih ht hrun]
    | fault f => cases f
    | refused r' =>
      rw [run_succ_refused j hstep] at hrun
      rw [run_succ_refused j (sim.step_refused h hstep), hrun]

end Simulation

namespace State

/-- The reset event forgets all that is not the host's. -/
theorem Alike.resetBlock {s s' : State} (h : s.Alike s') : s.resetBlock.Alike s'.resetBlock :=
  { h with
    busy := rfl
    done := rfl
    rkind := rfl
    len := rfl
    result := fun _ => rfl
    valid := fun _ _ => rfl }

/-- `s'` differs from `s` in the hidden registers alone, in those only while no calculation uses them, and in RESULT only
while DONE = 0. -/
structure HiddenApart (s s' : State) : Prop extends Alike s s' where
  buf : s'.buf = s.buf
  hidden : s.busy = true → s'.kindr = s.kindr ∧ s'.ucnt = s.ucnt ∧ s'.sum1 = s.sum1 ∧ s'.sum2 = s.sum2

/-- Two running calculations that look alike and are equally far; the sums and the buffer may differ. -/
structure RunningAlike (s s' : State) : Prop extends Alike s s' where
  running : s.busy = true
  kindr : s'.kindr = s.kindr
  ucnt : s'.ucnt = s.ucnt

namespace HiddenApart
variable {s s' : State} (h : s.HiddenApart s')
include h

theorem symm : s'.HiddenApart s where
  cfg := h.cfg.symm
  busy := h.busy.symm
  done := h.done.symm
  rkind := h.rkind.symm
  len := h.len.symm
  program := h.program.symm
  schedule := h.schedule.symm
  replies := h.replies.symm
  draws := h.draws.symm
  result hdone := (h.result (h.done.symm.trans hdone)).symm
  valid hidle i := (h.valid (h.busy.symm.trans hidle) i).symm
  buf := h.buf.symm
  hidden hbusy := by
    obtain ⟨hkindr, hucnt, hsum1, hsum2⟩ := h.hidden (h.busy.symm.trans hbusy)
    exact ⟨hkindr.symm, hucnt.symm, hsum1.symm, hsum2.symm⟩

theorem hostUpdate {f : State → State} (hf : s.HostUpdate f) : (f s).HiddenApart (f s') := by
  refine { hf.alike h.toAlike with buf := ?_, hidden := ?_ }
  · cases hf with
    | storeByte i b _ => exact congrArg (Memory.write · i b) h.buf
    | _ => exact h.buf
  · cases hf with
    | accept k _ => exact fun _ => ⟨rfl, rfl, rfl, rfl⟩
    | _ => exact h.hidden

theorem sameCalculation (hbusy : s.busy = true) : SameCalculation s s' := by
  obtain ⟨hkindr, hucnt, hsum1, hsum2⟩ := h.hidden hbusy
  exact { h with
    kindr := hkindr
    ucnt := hucnt
    sum1 := hsum1
    sum2 := hsum2
    bytes := fun _ _ => by rw [h.buf]
    result := fun hdone => ⟨h.result hdone, h.rkind⟩ }

/-- While a calculation runs, the hidden registers are the same, and so is the engine's step. -/
theorem engineStep : s.engineStep.HiddenApart s'.engineStep := by
  cases hbusy : s.busy with
  | false => rwa [engineStep_not_busy hbusy, engineStep_not_busy (h.busy.trans hbusy)]
  | true =>
    have hsame := h.sameCalculation hbusy
    rcases engineStep_cases_of_eq h.busy hsame.ucnt hsame.unitCount with ⟨he, he'⟩ | ⟨he, he'⟩ | ⟨he, he'⟩ <;>
      rw [he, he']
    · have hunit := hsame.unitStep
      exact { h with hidden := fun _ => ⟨hunit.kindr, hunit.ucnt, hunit.sum1, hunit.sum2⟩ }
    · exact { h with
        busy := rfl
        done := rfl
        rkind := hsame.kindr
        result := fun hdone => (hsame.finalise.result hdone).1
        valid := fun _ _ => rfl
        buf := rfl
        hidden := fun hb => absurd hb Bool.false_ne_true }
    · exact h

end HiddenApart

/-- Hidden registers that differ do not make two runs differ. -/
theorem simulation_hiddenApart : Simulation (fun _ => True) HiddenApart where
  alike h := h.toAlike
  pending _ _ h := { h with program := rfl, schedule := rfl }
  host h hf := h.hostUpdate hf
  engine h _ := h.engineStep
  reset h _ := { h.toAlike.resetBlock with buf := rfl, hidden := fun hb => absurd hb Bool.false_ne_true }

/-- Sums and bytes that differ do not make two runs differ, as long as the calculation runs. -/
theorem simulation_runningAlike : Simulation (fun s => s.busy = true) RunningAlike where
  alike h := h.toAlike
  pending _ _ h := { h with program := rfl, schedule := rfl }
  host {s s' _} h hf := by
    obtain ⟨hbusy, hkindr, hucnt⟩ := hf.frame h.running s
    obtain ⟨-, hkindr', hucnt'⟩ := hf.frame h.running s'
    exact { hf.alike h.toAlike with
      running := hbusy.trans h.running
      kindr := hkindr'.trans (h.kindr.trans hkindr.symm)
      ucnt := hucnt'.trans (h.ucnt.trans hucnt.symm) }
  engine {s s'} h hbusy := by
    have hcount : s'.unitCount = s.unitCount := by rw [unitCount, unitCount, h.cfg, h.len, h.kindr]
    rcases engineStep_cases_of_eq h.busy h.ucnt hcount with ⟨he, he'⟩ | ⟨he, -⟩ | ⟨he, he'⟩
    · rw [he, he']
      exact { h with
        ucnt := congrArg (· + 1) h.ucnt
        valid := fun hidle => absurd h.running (Bool.eq_false_iff.1 hidle) }
    · rw [he] at hbusy
      exact absurd hbusy Bool.false_ne_true
    · rwa [he, he']
  reset _ hbusy := absurd hbusy Bool.false_ne_true

end State

/-- Settles O48: with BUSY = 0 the two states differ where no run looks. -/
theorem hiddenRegistersDoNotLeak : Obligations.HiddenRegistersDoNotLeak := by
  unfold Obligations.HiddenRegistersDoNotLeak
  intro s a b n k x j hidle
  have happart : s.HiddenApart
      { s with sum1 := a, sum2 := b, ucnt := n, kindr := k, result := if s.done then s.result else x } :=
    { cfg := rfl, busy := rfl, done := rfl, rkind := rfl, len := rfl, program := rfl, schedule := rfl, replies := rfl
      draws := rfl, valid := fun _ _ => rfl, buf := rfl
      result := fun hdone => if_pos hdone
      hidden := fun hbusy => absurd hbusy (Bool.eq_false_iff.1 hidle) }
  have sim := State.simulation_hiddenApart
  refine ⟨fun r => ⟨sim.run_refused happart fun _ => trivial, sim.run_refused happart.symm fun _ => trivial⟩,
    fun u hrun => ?_⟩
  obtain ⟨u', hrun', h⟩ := sim.run_next happart (fun _ _ _ _ => trivial) hrun
  exact ⟨u', hrun', h.replies, h.statusWord, h.len, h.result⟩

/-- Settles O49: the two calculations look alike for as long as the first is busy. -/
theorem partialSumsAreNotObservable : Obligations.PartialSumsAreNotObservable := by
  unfold Obligations.PartialSumsAreNotObservable
  intro s a b m j u hbusy hrun
  have hrunning : s.busy = true := hbusy 0 (Nat.zero_le j) s rfl
  have hsame : s.RunningAlike { s with sum1 := a, sum2 := b, buf := m } :=
    { cfg := rfl, busy := rfl, done := rfl, rkind := rfl, len := rfl, program := rfl, schedule := rfl, replies := rfl
      draws := rfl, result := fun _ => rfl, kindr := rfl, ucnt := rfl
      valid := fun hidle => absurd hrunning (Bool.eq_false_iff.1 hidle)
      running := hrunning }
  obtain ⟨u', hrun', h⟩ := State.simulation_runningAlike.run_next hsame hbusy hrun
  exact ⟨u', hrun', h.replies, h.statusWord, h.len, h.ucnt⟩

end Sys2Proof.Machine
end
